-- ==== Sys2Proof/Word.lean ====
section
/-! DEFINITION. The value types of the block: bytes, command words, caller ids, tracked bits and
bytes, and registers that may be UNSET. -/

namespace Sys2Proof

/-- Eight bits; bit 7 is the leftmost pixel of its group (`20_memory.md` R50). -/
abbrev Byte := BitVec 8

/-- A command word (`30_encoding.md` R65). -/
abbrev Word := BitVec 32

/-- A caller's id, a natural number below N_CALLERS (`60_exceptions.md` R158). -/
abbrev CallerId := Nat

/-- One bit of the frame buffer: 0, 1 or `?` (`00_scope.md` R12). -/
inductive TBit where
  | known (b : Bool)
  | unknown
  deriving DecidableEq, Repr

/-- A tracked byte: eight bits, each known or `?`; index 0 is the least significant bit
(`20_memory.md` R52). -/
abbrev TByte := Vector TBit 8

/-- A register of `w` bits that may be UNSET (`00_scope.md` R11). UNSET is the spec's own value,
distinct from every bit pattern. -/
inductive Reg (w : Nat) where
  | unset
  | set (v : BitVec w)
  deriving DecidableEq, Repr

end Sys2Proof
end

