-- ==== Sys2Proof/Config.lean ====
section
/-! DEFINITION. What is fixed for one implementation: the constants of `00_scope.md` R6, the open
parameters of R7, and the free values a run draws. Everything `opaque` is a value the spec leaves
open: no proof can see it. -/

namespace Sys2Proof.Config

/-- WIDTH (`00_scope.md` R6). -/
def width : Nat := 640
/-- HEIGHT. -/
def height : Nat := 480
/-- BYTES_PER_ROW = WIDTH / 8. -/
def bytesPerRow : Nat := 80
/-- VISIBLE_PLANE_BYTES = (WIDTH × HEIGHT) / 8. -/
def visiblePlaneBytes : Nat := 38400
/-- WINDOW_BYTES = CLEAR_SWEEP_BYTES = (WIDTH × HEIGHT) / 4 (`90_conflicts.md` C1). -/
def windowBytes : Nat := 76800
/-- CHANNEL_MAX, the 6-bit DAC range. -/
def channelMax : Nat := 63
/-- PALETTE_BYTES = 256 × 3. -/
def paletteBytes : Nat := 768

/-- SET_RESET_VALUE, a constant of this hardware (`10_state.md` R33). -/
def setResetValue : BitVec 4 := 0b0000#4

/-- N_CALLERS less one; OPEN (`00_scope.md` R7). -/
opaque extraCallers : Nat
/-- N_CALLERS, at least 1 (`00_scope.md` R7, `60_exceptions.md` R158). -/
def nCallers : Nat := extraCallers + 1

/-- FB_BASE; OPEN, and possibly different after each SET_MODE, so it takes the number of mode
switches done (`20_memory.md` R53). -/
opaque fbBase : Nat → Nat

/-- The 6-bit value of byte `j` of DEFAULT_PALETTE; OPEN (`40_color_model.md` R94). -/
opaque defaultPaletteChannel : Nat → BitVec 6
/-- DEFAULT_PALETTE: 768 bytes, each at most 63 (`40_color_model.md` R94). -/
def defaultPalette : List Byte :=
  (List.range paletteBytes).map fun j => (defaultPaletteChannel j).setWidth 8

/-- PIXEL_LUT_INDEX; OPEN (`10_state.md` R35). -/
opaque pixelLutIndex : BitVec 4 → BitVec 8

/-- A free number for the `n`-th turn: ARBITER's choice of the enabled command that runs
(`42_device_lock.md` R120), and the callers' choice of when to issue theirs (`10_state.md` R21). -/
opaque arbiter : Nat → Nat

/-- The eight fresh bits drawn by the `n`-th FB_READ (`00_scope.md` R12, `20_memory.md` R52). -/
opaque readDraw : Nat → Byte

/-- The value ModeSwitch leaves in channel `k` of LUT entry `i` at the `n`-th mode switch: "any
values" (`43_planar_writer.md` R131). -/
opaque modeSwitchDraw : (n i k : Nat) → BitVec 6

end Sys2Proof.Config
end

