-- ==== Sys2Proof/Machine/Memory.lean ====
section
/-! DEFINITION. Sparse maps in one canonical form, and a bit-plane's storage as one of them. A map
lists (key, value) pairs with strictly rising keys and no entry equal to what an unlisted key reads
as, so that equal maps are equal lists. -/

namespace Sys2Proof.Machine

/-- The value at a key; `d` where the key is not listed. -/
def lookup {α : Type} (d : α) : List (Nat × α) → Nat → α
  | [], _ => d
  | (k, v) :: m, a => if a = k then v else lookup d m a

/-- List a value at a key, in key order, in place of what was listed there. -/
def insertAt {α : Type} (a : Nat) (v : α) : List (Nat × α) → List (Nat × α)
  | [] => [(a, v)]
  | (k, w) :: m =>
    if a < k then (a, v) :: (k, w) :: m
    else if a = k then (a, v) :: m
    else (k, w) :: insertAt a v m

/-- Take a key off the list. -/
def eraseAt {α : Type} (a : Nat) : List (Nat × α) → List (Nat × α)
  | [] => []
  | (k, w) :: m => if a = k then eraseAt a m else (k, w) :: eraseAt a m

/-- Store a value at a key and keep the canonical form. -/
def store {α : Type} [DecidableEq α] (d : α) (m : List (Nat × α)) (a : Nat) (v : α) :
    List (Nat × α) :=
  if v = d then eraseAt a m else insertAt a v m

/-- The canonical form: keys strictly rise and no entry equals the unlisted value `d`. -/
abbrev Canonical {α : Type} (d : α) (m : List (Nat × α)) : Prop :=
  m.Pairwise (fun e f => e.1 < f.1) ∧ ∀ e ∈ m, e.2 ≠ d

/-- One bit-plane: (offset, tracked byte) pairs (`10_state.md` R31). -/
abbrev Memory := List (Nat × TByte)

/-- A byte all of whose bits are `?` (`00_scope.md` R12). -/
def unknownByte : TByte := Vector.replicate 8 .unknown

/-- PLANE[p][off]. An unlisted offset reads as `????????`, what the spec gives every byte at reset
and after a mode switch (`10_state.md` R38, `43_planar_writer.md` R131). -/
def Memory.read (m : Memory) (off : Nat) : TByte := lookup unknownByte m off

/-- PLANE[p][off] <- v. -/
def Memory.write (m : Memory) (off : Nat) (v : TByte) : Memory := store unknownByte m off v

/-- A plane's canonical form, with every listed offset inside the window (`10_state.md` R31). -/
abbrev Memory.wf (m : Memory) : Prop :=
  Canonical unknownByte m ∧ ∀ e ∈ m, e.1 < Config.windowBytes

end Sys2Proof.Machine
end

