-- ==== Sys2Proof/Machine/State.lean ====
section
/-! DEFINITION. All the state the spec gives the block and its callers, as plain data, and the
machine right after reset. -/

namespace Sys2Proof.Machine

/-- MODE (`10_state.md` R24): `other` is 0, `gfx640` is 1. -/
inductive Mode where
  | other
  | gfx640
  deriving DecidableEq, Repr

/-- The fault codes 1 to 8 (`60_exceptions.md` R146). Code 0 is "no fault"; 9 to 15 are reserved. -/
inductive FaultCode where
  | illegalCommand
  | notOwner
  | lockHeld
  | notInMode
  | coordRange
  | fbRange
  | regUnset
  | paletteRange
  deriving DecidableEq, Repr

/-- One LUT entry: three 6-bit channels, each possibly UNSET (`10_state.md` R32). -/
structure LutEntry where
  red   : Reg 6
  green : Reg 6
  blue  : Reg 6
  deriving DecidableEq, Repr

/-- The register and value of a `RegWrite` event (`10_state.md` R30). -/
inductive RegWrite where
  | planeMask (v : BitVec 4)
  | writeEnable (v : BitVec 4)
  | readPlane (v : BitVec 2)
  deriving DecidableEq, Repr

/-- The events of the log (`10_state.md` R30). Bytes are tracked (`20_memory.md` R52). -/
inductive Event where
  | acquire (c : CallerId)
  | release (c : CallerId)
  | regWrite (c : CallerId) (w : RegWrite)
  | rd (c : CallerId) (plane : BitVec 2) (off : Nat) (v : TByte)
  | wr (c : CallerId) (off : Nat) (v : TByte) (pm we : BitVec 4)
  | pal (c : CallerId)
  | mode (c : CallerId)
  deriving DecidableEq, Repr

/-- The block's own state: the named registers (`10_state.md` R23), the halted bit
(`60_exceptions.md` R151), the event log (R30, oldest first), the planes (R31) and the LUT (R32). -/
structure Block where
  mode        : Mode
  planeMask   : Reg 4
  writeEnable : Reg 4
  readPlane   : Reg 2
  lockOwner   : Option CallerId
  fault       : BitVec 4
  faultCaller : Option CallerId
  faultWord   : Option Word
  halted      : Bool
  log         : List Event
  planes      : Vector Memory 4
  lut         : Vector LutEntry 256
  deriving DecidableEq, Repr

/-- A command as a caller presents it: its word and its payload (`30_encoding.md` R65). -/
structure Command where
  word    : Word
  payload : List Byte
  deriving DecidableEq, Repr

/-- A transaction on the command port: the issuing caller's id beside the command
(`30_encoding.md` R65, R83). -/
structure Transaction where
  caller  : CallerId
  command : Command
  deriving DecidableEq, Repr

/-- What a completed command returns (`60_exceptions.md` R161). -/
inductive Response where
  | ok
  | okByte (v : Byte)
  deriving DecidableEq, Repr

/-- One caller: its command sequence; its command index, which is its position in the sequence; whether
it has issued the command there and the block has not responded, so that the command is outstanding;
and the responses it has received, oldest first (`10_state.md` R21, R37; `60_exceptions.md` R161). -/
structure Caller where
  sequence  : List Command
  index     : Nat
  issued    : Bool
  responses : List Response
  deriving DecidableEq, Repr

/-- A caller that has nothing to issue and has issued nothing. -/
def Caller.idle : Caller := ⟨[], 0, false, []⟩

/-- The model's own counters, which index the free values of Config: FB_READ draws, mode switches, and
turns taken by a caller or by ARBITER, so far. -/
structure Draws where
  reads        : Nat
  modeSwitches : Nat
  choices      : Nat
  deriving DecidableEq, Repr

/-- The machine: the block, the transaction on its port, the callers by id (a canonical map; an
unlisted caller is `Caller.idle`), the draw counters, and the external reset input
(`70_reset_and_hazards.md` R165). -/
structure State where
  block      : Block
  port       : Transaction
  callers    : List (Nat × Caller)
  draws      : Draws
  resetInput : Bool
  deriving DecidableEq, Repr

/-- Why a step stops the machine: never. Every misuse is one of the spec's own faults, which is
recorded in State and halts the block (`60_exceptions.md` R150), so it is a next state; no behaviour
of the spec is left without an effect. -/
inductive Fault where
  deriving DecidableEq, Repr

/-- Why a step has no meaning for a command. -/
inductive Refusal where
  /-- Raised by an arm of `exec` whose command has no meaning yet; no arm does. Safe. -/
  | notModelled (mnemonic : String)
  deriving DecidableEq, Repr

/-- The outcome of a step or of a command. -/
abbrev Result := Host.Outcome State Fault Refusal

/-- The block at reset (`10_state.md` R38; `halted` by `70_reset_and_hazards.md` R165). -/
def Block.reset : Block where
  mode        := .other
  planeMask   := .unset
  writeEnable := .unset
  readPlane   := .unset
  lockOwner   := none
  fault       := 0#4
  faultCaller := none
  faultWord   := none
  halted      := false
  log         := []
  planes      := Vector.replicate 4 []
  lut         := Vector.replicate 256 ⟨.unset, .unset, .unset⟩

/-- The machine right after reset: the block at its reset values, no caller with a command,
outstanding or to come (`60_exceptions.md` R158), every command index 0. The port, the counters and the reset input are at
values the model names (DESIGN CHOICE, log 5). -/
def State.reset : State where
  block      := Block.reset
  port       := ⟨0, ⟨0#32, []⟩⟩
  callers    := []
  draws      := ⟨0, 0, 0⟩
  resetInput := false

end Sys2Proof.Machine
end

