-- ==== Sys2Proof/Machine/Flags.lean ====
section
/-! DEFINITION. The block has no condition codes, flags or predicates (`10_state.md` R22): no command
computes a flag. What a command does compute is whether one of its faults applies, and the only
status is FAULT. This file holds those conditions (`60_exceptions.md` R146) and the numbering of the
codes. -/

namespace Sys2Proof.Machine

/-- The value FAULT takes for each code (`60_exceptions.md` R146). -/
def FaultCode.code : FaultCode → BitVec 4
  | .illegalCommand => 1#4
  | .notOwner => 2#4
  | .lockHeld => 3#4
  | .notInMode => 4#4
  | .coordRange => 5#4
  | .fbRange => 6#4
  | .regUnset => 7#4
  | .paletteRange => 8#4

/-- COORD_RANGE applies: x ≥ 640 or y ≥ 480 (`43_planar_writer.md` R128). -/
def coordOutOfRange (x y : Nat) : Bool := Config.width ≤ x || Config.height ≤ y

/-- FB_RANGE applies: off ≥ 76800 (`41_register_layer.md` R104, R105). -/
def offOutOfWindow (off : Nat) : Bool := Config.windowBytes ≤ off

/-- PALETTE_RANGE applies: some payload byte is above 63 (`40_color_model.md` R91). -/
def paletteOutOfRange (payload : List Byte) : Bool :=
  payload.any fun b => Config.channelMax < b.toNat

end Sys2Proof.Machine
end

