-- ==== Sys2Proof/Syntax.lean ====
section
/-! DEFINITION. The commands of `spec/opcode_table.json`, one constructor a row. Operands are the
fields of `30_encoding.md` R67 at their encoded widths; LOAD_PALETTE carries its payload (R74). -/

namespace Sys2Proof

/-- A command of the block (`30_encoding.md` R66, R82). -/
inductive Instr where
  | setMode
  | clearScreen
  | setPixel (x : BitVec 10) (y : BitVec 9) (color : BitVec 4)
  | setPlaneMask (mask : BitVec 4)
  | setWriteEnable (mask : BitVec 4)
  | setReadPlane (plane : BitVec 2)
  | loadPalette (payload : List Byte)
  | fbRead (off : BitVec 17)
  | fbWrite (off : BitVec 17) (data : Byte)
  | attrNew (fg bg : BitVec 4)
  | attrSetFg (attr : Byte) (color : BitVec 4)
  | attrSetBg (attr : Byte) (color : BitVec 4)
  | lock
  | unlock
  deriving DecidableEq, Repr

end Sys2Proof
end

