-- ==== Sys2Proof/WellFormed.lean ====
section
/-! DEFINITION. When a command term is one the encoding admits. Every field has its encoded width
by type, so the one check is the payload's length. -/

namespace Sys2Proof

/-- LOAD_PALETTE's payload is 768 bytes long (`30_encoding.md` R74, R77). Every other command's
fields admit every value (R68 to R73). -/
def Instr.wellFormed : Instr → Bool
  | .loadPalette payload => payload.length == Config.paletteBytes
  | .setMode | .clearScreen | .setPixel _ _ _ | .setPlaneMask _ | .setWriteEnable _
  | .setReadPlane _ | .fbRead _ | .fbWrite _ _ | .attrNew _ _ | .attrSetFg _ _
  | .attrSetBg _ _ | .lock | .unlock => true

end Sys2Proof
end

