-- ==== Sys2Proof/Decode.lean ====
section
/-! DEFINITION. The command encoding (`30_encoding.md`): the opcode map, the reserved bits of every
format, the decoder, total on any word and payload and on any bytes, and the encoder. -/

namespace Sys2Proof

/-- The fourteen legal opcodes (`30_encoding.md` R66). -/
inductive Opcode where
  | setMode | clearScreen | setPixel | setPlaneMask | setWriteEnable | setReadPlane | loadPalette
  | fbRead | fbWrite | attrNew | attrSetFg | attrSetBg | lock | unlock
  deriving DecidableEq, Repr

/-- Why a transaction is illegal, each raised as ILLEGAL_COMMAND (`30_encoding.md` R75 to R77);
`truncated` is a byte string too short to hold a command word. -/
inductive Illegal where
  | reservedOpcode
  | reservedBits
  | payloadLength
  | truncated
  deriving DecidableEq, Repr

/-- Bits `hi` down to `lo` of a command word. -/
def field (w : Word) (hi lo : Nat) : BitVec (hi - lo + 1) := w.extractLsb' lo (hi - lo + 1)

/-- The opcode map, by OP = word[31:28] (`30_encoding.md` R66); 0x0 and 0xF are reserved (R75). -/
def opcodeOf (op : BitVec 4) : Option Opcode :=
  match op.toNat with
  | 0x1 => some .setMode
  | 0x2 => some .clearScreen
  | 0x3 => some .setPixel
  | 0x4 => some .setPlaneMask
  | 0x5 => some .setWriteEnable
  | 0x6 => some .setReadPlane
  | 0x7 => some .loadPalette
  | 0x8 => some .fbRead
  | 0x9 => some .fbWrite
  | 0xA => some .attrNew
  | 0xB => some .attrSetFg
  | 0xC => some .attrSetBg
  | 0xD => some .lock
  | 0xE => some .unlock
  | _ => none

/-- The bits of each opcode's format that are marked `0` (`30_encoding.md` R67). -/
def Opcode.reserved : Opcode → Word
  | .setMode | .clearScreen | .loadPalette | .lock | .unlock => 0x0FFFFFFF#32   -- F-NONE
  | .setPixel => 0x000001F0#32                                                   -- F-PIX
  | .setPlaneMask | .setWriteEnable => 0x0FFFFFF0#32                             -- F-MASK
  | .setReadPlane => 0x0FFFFFFC#32                                               -- F-PLANE
  | .fbRead => 0x0FFE0000#32                                                     -- F-RD
  | .fbWrite => 0x0E000000#32                                                    -- F-WR
  | .attrNew => 0x0FFFFF00#32                                                    -- F-ATTR
  | .attrSetFg | .attrSetBg => 0x0FFF00F0#32                                     -- F-NIB

/-- The payload length is decided by the opcode alone (`30_encoding.md` R74). -/
def Opcode.payloadLength : Opcode → Nat
  | .loadPalette => Config.paletteBytes
  | .setMode | .clearScreen | .setPixel | .setPlaneMask | .setWriteEnable | .setReadPlane
  | .fbRead | .fbWrite | .attrNew | .attrSetFg | .attrSetBg | .lock | .unlock => 0

/-- Operand assembly (`30_encoding.md` R68 to R74): every field is taken as it stands. -/
def Opcode.assemble (op : Opcode) (w : Word) (payload : List Byte) : Instr :=
  match op with
  | .setMode => .setMode
  | .clearScreen => .clearScreen
  | .setPixel => .setPixel (field w 27 18) (field w 17 9) (field w 3 0)
  | .setPlaneMask => .setPlaneMask (field w 3 0)
  | .setWriteEnable => .setWriteEnable (field w 3 0)
  | .setReadPlane => .setReadPlane (field w 1 0)
  | .loadPalette => .loadPalette payload
  | .fbRead => .fbRead (field w 16 0)
  | .fbWrite => .fbWrite (field w 24 8) (field w 7 0)
  | .attrNew => .attrNew (field w 3 0) (field w 7 4)
  | .attrSetFg => .attrSetFg (field w 15 8) (field w 3 0)
  | .attrSetBg => .attrSetBg (field w 15 8) (field w 3 0)
  | .lock => .lock
  | .unlock => .unlock

/-- The decoder, a total function of the word and the payload (`30_encoding.md` R75 to R79). -/
def decode (w : Word) (payload : List Byte) : Except Illegal Instr :=
  match opcodeOf (field w 31 28) with
  | none => .error .reservedOpcode
  | some op =>
    if w &&& op.reserved ≠ 0#32 then .error .reservedBits
    else if payload.length ≠ op.payloadLength then .error .payloadLength
    else .ok (op.assemble w payload)

/-- A command word carried as four bytes, byte 0 holding bits 7:0 (`20_memory.md` R50). -/
def wordOfBytes (b0 b1 b2 b3 : Byte) : Word := b3 ++ b2 ++ b1 ++ b0

/-- The four bytes of a command word, least significant first (`20_memory.md` R50). -/
def bytesOfWord (w : Word) : List Byte :=
  [w.extractLsb' 0 8, w.extractLsb' 8 8, w.extractLsb' 16 8, w.extractLsb' 24 8]

/-- The decoder on a byte transport: four bytes of command word, then the payload
(`20_memory.md` R50, `30_encoding.md` R80). -/
def decodeBytes : List Byte → Except Illegal Instr
  | b0 :: b1 :: b2 :: b3 :: payload => decode (wordOfBytes b0 b1 b2 b3) payload
  | _ => .error .truncated

/-- The command word of an instruction, field by field as the bit strings of `30_encoding.md`
R67 write it. -/
def encodeWord : Instr → Word
  | .setMode => 0x1#4 ++ 0#28
  | .clearScreen => 0x2#4 ++ 0#28
  | .setPixel x y color => 0x3#4 ++ x ++ y ++ 0#5 ++ color
  | .setPlaneMask mask => 0x4#4 ++ 0#24 ++ mask
  | .setWriteEnable mask => 0x5#4 ++ 0#24 ++ mask
  | .setReadPlane plane => 0x6#4 ++ 0#26 ++ plane
  | .loadPalette _ => 0x7#4 ++ 0#28
  | .fbRead off => 0x8#4 ++ 0#11 ++ off
  | .fbWrite off data => 0x9#4 ++ 0#3 ++ off ++ data
  | .attrNew fg bg => 0xA#4 ++ 0#20 ++ bg ++ fg
  | .attrSetFg attr color => 0xB#4 ++ 0#12 ++ attr ++ 0#4 ++ color
  | .attrSetBg attr color => 0xC#4 ++ 0#12 ++ attr ++ 0#4 ++ color
  | .lock => 0xD#4 ++ 0#28
  | .unlock => 0xE#4 ++ 0#28

/-- The payload that goes with an instruction's word (`30_encoding.md` R74). -/
def encodePayload : Instr → List Byte
  | .loadPalette payload => payload
  | .setMode | .clearScreen | .setPixel _ _ _ | .setPlaneMask _ | .setWriteEnable _
  | .setReadPlane _ | .fbRead _ | .fbWrite _ _ | .attrNew _ _ | .attrSetFg _ _
  | .attrSetBg _ _ | .lock | .unlock => []

/-- An instruction as bytes on a byte transport. -/
def encodeBytes (i : Instr) : List Byte := bytesOfWord (encodeWord i) ++ encodePayload i

/-- One row of `spec/opcode_table.json`. -/
structure Row where
  mnemonic : String
  opcode   : Opcode
  mask     : Word
  pattern  : Word
  deriving DecidableEq, Repr

/-- `spec/opcode_table.json`, row for row: mnemonic, mask and match. -/
def opcodeTable : List Row :=
  [ ⟨"SET_MODE",         .setMode,        0xFFFFFFFF#32, 0x10000000#32⟩,
    ⟨"CLEAR_SCREEN",     .clearScreen,    0xFFFFFFFF#32, 0x20000000#32⟩,
    ⟨"SET_PIXEL",        .setPixel,       0xF00001F0#32, 0x30000000#32⟩,
    ⟨"SET_PLANE_MASK",   .setPlaneMask,   0xFFFFFFF0#32, 0x40000000#32⟩,
    ⟨"SET_WRITE_ENABLE", .setWriteEnable, 0xFFFFFFF0#32, 0x50000000#32⟩,
    ⟨"SET_READ_PLANE",   .setReadPlane,   0xFFFFFFFC#32, 0x60000000#32⟩,
    ⟨"LOAD_PALETTE",     .loadPalette,    0xFFFFFFFF#32, 0x70000000#32⟩,
    ⟨"FB_READ",          .fbRead,         0xFFFE0000#32, 0x80000000#32⟩,
    ⟨"FB_WRITE",         .fbWrite,        0xFE000000#32, 0x90000000#32⟩,
    ⟨"ATTR_NEW",         .attrNew,        0xFFFFFF00#32, 0xA0000000#32⟩,
    ⟨"ATTR_SET_FG",      .attrSetFg,      0xFFFF00F0#32, 0xB0000000#32⟩,
    ⟨"ATTR_SET_BG",      .attrSetBg,      0xFFFF00F0#32, 0xC0000000#32⟩,
    ⟨"LOCK",             .lock,           0xFFFFFFFF#32, 0xD0000000#32⟩,
    ⟨"UNLOCK",           .unlock,         0xFFFFFFFF#32, 0xE0000000#32⟩ ]

/-- `n` bytes of a number, least significant first. -/
def bytesOfNat : (n : Nat) → (v : Nat) → List Byte
  | 0, _ => []
  | n + 1, v => BitVec.ofNat 8 v :: bytesOfNat n (v / 256)

/-- The command word and payload in a table-numbered bit string: bits 31:0 are the word, and the
payload's bytes follow upwards from bit 32, as many as the opcode takes; every bit above `nbits`
is 0. -/
def tableTransaction (nbits w : Nat) : Word × List Byte :=
  let v := w % 2 ^ nbits
  let word := BitVec.ofNat 32 v
  match opcodeOf (field word 31 28) with
  | none => (word, [])
  | some op => (word, bytesOfNat op.payloadLength (v / 2 ^ 32))

/-- What the decoder reads from an instruction numbered as the opcode table numbers it, laid out as
bytes on the transport. -/
def decodeTableWord (nbits w : Nat) : Option Instr :=
  let t := tableTransaction nbits w
  (decodeBytes (bytesOfWord t.1 ++ t.2)).toOption

end Sys2Proof
end

