-- ==== Sys2Proof/Machine/Operands.lean ====
section
/-! DEFINITION. The pure computations on operands: tracked bytes, attribute bytes, the addressing
transform, plane selection, palette payloads, and which commands take the lock. -/

namespace Sys2Proof.Machine

/-- A byte all of whose bits are known. -/
def TByte.ofByte (v : Byte) : TByte := Vector.ofFn fun i : Fin 8 => .known (v.getLsbD i)

/-- `t | m`: the bits of `m` become known 1, every other bit is kept, `?` included
(`20_memory.md` R52). -/
def TByte.setBits (t : TByte) (m : Byte) : TByte :=
  Vector.ofFn fun i : Fin 8 => if m.getLsbD i then .known true else t[i]

/-- `t & ~m`: the bits of `m` become known 0, every other bit is kept, `?` included
(`20_memory.md` R52). -/
def TByte.clearBits (t : TByte) (m : Byte) : TByte :=
  Vector.ofFn fun i : Fin 8 => if m.getLsbD i then .known false else t[i]

/-- A bit leaving the block: a known bit as it is, a `?` bit as the drawn one. -/
def TBit.resolve : TBit → Bool → Bool
  | .known b, _ => b
  | .unknown, drawn => drawn

/-- A tracked byte leaving the block: each `?` bit is replaced by the drawn bit of its place
(`20_memory.md` R52, `41_register_layer.md` R104). -/
def TByte.resolve (t : TByte) (drawn : Byte) : Byte :=
  let bit (i : Nat) (h : i < 8) : BitVec 1 := BitVec.ofBool (TBit.resolve t[i] (drawn.getLsbD i))
  bit 7 (by decide) ++ bit 6 (by decide) ++ bit 5 (by decide) ++ bit 4 (by decide)
    ++ bit 3 (by decide) ++ bit 2 (by decide) ++ bit 1 (by decide) ++ bit 0 (by decide)

/-- The attribute byte of a background and a foreground code (`40_color_model.md` R87, R88). -/
def attrByte (fg bg : BitVec 4) : Byte := (bg.setWidth 8) <<< 4 ||| fg.setWidth 8

/-- An attribute byte with its foreground nibble replaced (`40_color_model.md` R89). -/
def attrWithFg (attr : Byte) (c : BitVec 4) : Byte := (attr &&& 0xF0#8) ||| c.setWidth 8

/-- An attribute byte with its background nibble replaced (`40_color_model.md` R90). -/
def attrWithBg (attr : Byte) (c : BitVec 4) : Byte := (c.setWidth 8) <<< 4 ||| (attr &&& 0x0F#8)

/-- The byte offset of pixel (x, y) in every plane (`43_planar_writer.md` R125). -/
def pixelOffset (x y : Nat) : Nat := x / 8 + Config.bytesPerRow * y

/-- The bit of pixel (x, y) within its byte (`43_planar_writer.md` R126). -/
def pixelBit (x : Nat) : Nat := 7 - x % 8

/-- The mask of pixel (x, y) within its byte (`43_planar_writer.md` R126). -/
def pixelMask (x : Nat) : Byte := 0x80#8 >>> (x % 8)

/-- The plane mask that selects plane `p` alone (`43_planar_writer.md` R127). -/
def planeSelect (p : BitVec 2) : BitVec 4 := 1#4 <<< p.toNat

/-- The forced byte of plane `p` (`10_state.md` R33). -/
def forcedByte (p : Nat) : Byte := if Config.setResetValue.getLsbD p then 0xFF#8 else 0x00#8

/-- Channel `k` of LUT entry `i` in a palette payload: byte 3 × i + k (`20_memory.md` R50). The low
six bits are the whole value once every byte is at most 63 (`40_color_model.md` R91). -/
def paletteChannel (payload : List Byte) (i k : Nat) : Reg 6 :=
  .set ((payload.getD (3 * i + k) 0#8).setWidth 6)

/-- The LUT a palette payload describes (`40_color_model.md` R91). -/
def paletteLut (payload : List Byte) : Vector LutEntry 256 :=
  Vector.ofFn fun i : Fin 256 =>
    ⟨paletteChannel payload i 0, paletteChannel payload i 1, paletteChannel payload i 2⟩

/-- LOCK and the composite commands: the ones that hold while another caller has the lock
(`42_device_lock.md` R117). -/
def takesLock : Instr → Bool
  | .setMode | .clearScreen | .setPixel _ _ _ | .lock => true
  | .setPlaneMask _ | .setWriteEnable _ | .setReadPlane _ | .loadPalette _ | .fbRead _
  | .fbWrite _ _ | .attrNew _ _ | .attrSetFg _ _ | .attrSetBg _ _ | .unlock => false

end Sys2Proof.Machine
end

