-- ==== Sys2Proof/Machine/Ops.lean ====
section
/-! DEFINITION. The named operations every command is made of: the event log, the lock, the register
writes, MemRead and MemWrite, the LUT load, ModeSwitch, raising a fault, holding, and responding.
Operations on the block take the issuing caller `c`. -/

namespace Sys2Proof.Machine

/-! ## The block -/

/-- Log(e) (`00_scope.md` R10, `10_state.md` R30). -/
def Block.logEvent (e : Event) (b : Block) : Block := { b with log := b.log ++ [e] }

/-- LOCK_OWNER <- c; Log(Acquire(c)) (`42_device_lock.md` R116, R119). -/
def Block.acquire (c : CallerId) (b : Block) : Block :=
  { b with lockOwner := some c }.logEvent (.acquire c)

/-- LOCK_OWNER <- none; Log(Release(c)) (`42_device_lock.md` R118, R119). -/
def Block.release (c : CallerId) (b : Block) : Block :=
  { b with lockOwner := none }.logEvent (.release c)

/-- PLANE_MASK <- v, logged (`41_register_layer.md` R101). -/
def Block.writePlaneMask (c : CallerId) (v : BitVec 4) (b : Block) : Block :=
  { b with planeMask := .set v }.logEvent (.regWrite c (.planeMask v))

/-- WRITE_ENABLE <- v, logged (`41_register_layer.md` R102). -/
def Block.writeWriteEnable (c : CallerId) (v : BitVec 4) (b : Block) : Block :=
  { b with writeEnable := .set v }.logEvent (.regWrite c (.writeEnable v))

/-- READ_PLANE <- v, logged (`41_register_layer.md` R103). -/
def Block.writeReadPlane (c : CallerId) (v : BitVec 2) (b : Block) : Block :=
  { b with readPlane := .set v }.logEvent (.regWrite c (.readPlane v))

/-- PLANE[p][off] (`10_state.md` R31). -/
def Block.planeByte (b : Block) (p : Fin 4) (off : Nat) : TByte := b.planes[p].read off

/-- The plane a 2-bit plane index names. -/
def planeIndex (p : BitVec 2) : Fin 4 := p.toFin

/-- MemRead(off, 1) (`20_memory.md` R47): the tracked byte of plane READ_PLANE, and the block with
the read logged. Called only with READ_PLANE set; an UNSET register would read as `????????` and
change nothing. -/
def Block.memRead (c : CallerId) (off : Nat) (b : Block) : TByte × Block :=
  match b.readPlane with
  | .unset => (unknownByte, b)
  | .set p =>
    let t := b.planeByte (planeIndex p) off
    (t, b.logEvent (.rd c p off t))

/-- What a write of `v` under `pm` and `we` leaves in plane `p` (`20_memory.md` R48): a selected
plane takes `v`, or its forced byte where its write-enable bit is set; another keeps its byte. -/
def writePlane (off : Nat) (v : TByte) (pm we : BitVec 4) (p : Nat) (m : Memory) : Memory :=
  if pm.getLsbD p then
    m.write off (if we.getLsbD p then TByte.ofByte (forcedByte p) else v)
  else m

/-- MemWrite(off, 1, v) (`20_memory.md` R48): the four plane updates as one write, then the event.
Called only with PLANE_MASK and WRITE_ENABLE set; with an UNSET register it would change nothing. -/
def Block.memWrite (c : CallerId) (off : Nat) (v : TByte) (b : Block) : Block :=
  match b.planeMask, b.writeEnable with
  | .set pm, .set we =>
    { b with planes := Vector.ofFn fun p : Fin 4 => writePlane off v pm we p b.planes[p] }.logEvent
      (.wr c off v pm we)
  | _, _ => b

/-- Every LUT entry from a 768-byte palette; Log(Pal(c)) (`40_color_model.md` R91). -/
def Block.loadLut (c : CallerId) (payload : List Byte) (b : Block) : Block :=
  { b with lut := paletteLut payload }.logEvent (.pal c)

/-- The LUT that the `n`-th mode switch leaves: any values (`43_planar_writer.md` R131). -/
def drawnLut (n : Nat) : Vector LutEntry 256 :=
  Vector.ofFn fun i : Fin 256 =>
    ⟨.set (Config.modeSwitchDraw n i 0), .set (Config.modeSwitchDraw n i 1),
      .set (Config.modeSwitchDraw n i 2)⟩

/-- ModeSwitch() (`43_planar_writer.md` R131), the `n`-th of the run. -/
def Block.modeSwitch (c : CallerId) (n : Nat) (b : Block) : Block :=
  { b.logEvent (.mode c) with
    mode := .gfx640
    planeMask := .unset
    writeEnable := .unset
    readPlane := .unset
    planes := Vector.replicate 4 []
    lut := drawnLut n }

/-- raise Fault(code) (`60_exceptions.md` R150): the fault record and the halt, nothing else. -/
def Block.raiseFault (code : FaultCode) (c : CallerId) (w : Word) (b : Block) : Block :=
  { b with fault := code.code, faultCaller := some c, faultWord := some w, halted := true }

/-! ## The commands' outcomes -/

/-- The caller with this id. -/
def State.caller (s : State) (c : CallerId) : Caller := lookup Caller.idle s.callers c

/-- Put a caller's record in place. -/
def State.setCaller (c : CallerId) (k : Caller) (s : State) : State :=
  { s with callers := store Caller.idle s.callers c k }

/-- The issuing caller of the command on the port (`30_encoding.md` R83). -/
def State.issuer (s : State) : CallerId := s.port.caller

/-- respond(r): the issuing caller receives one response, its command is no longer outstanding, and its
command index goes up by 1 (`60_exceptions.md` R161, `10_state.md` R21). -/
def State.respond (r : Response) (s : State) : State :=
  let k := s.caller s.issuer
  s.setCaller s.issuer { k with index := k.index + 1, issued := false, responses := k.responses ++ [r] }

/-- A command that is not enabled holds: it stays outstanding and nothing changes
(`42_device_lock.md` R117). -/
def State.hold (s : State) : Result := .next s

/-- The command on the port faults: the fault is taken by the issuing caller's command word, and no
response is returned (`60_exceptions.md` R150). -/
def State.raised (code : FaultCode) (s : State) : State :=
  { s with block := s.block.raiseFault code s.issuer s.port.command.word }

/-- A command's outcome when it faults. -/
def State.raise (code : FaultCode) (s : State) : Result := .next (s.raised code)

/-- The state after the command on the port has left the block as `b` and responded `r`. -/
def State.completed (r : Response) (b : Block) (s : State) : State :=
  { s with block := b }.respond r

/-- A command's outcome when it completes. -/
def State.complete (r : Response) (b : Block) (s : State) : Result := .next (s.completed r b)

/-! ## Reset, the only way out of a fault (`60_exceptions.md` R152) -/

/-- A caller after reset: its command index is 0, and it has no command outstanding, the one it had
being discarded without a response (`70_reset_and_hazards.md` R165, `60_exceptions.md` R158). Its
sequence is host-side and stays, so it may issue its first command again. -/
def Caller.restarted (k : Caller) : Caller := ⟨k.sequence, 0, false, []⟩

/-- Every caller after reset, in canonical form. -/
def restartedCallers : List (Nat × Caller) → List (Nat × Caller)
  | [] => []
  | (c, k) :: m =>
    if k.restarted = Caller.idle then restartedCallers m
    else (c, k.restarted) :: restartedCallers m

/-- The reset of `70_reset_and_hazards.md` R165. The draw counters run on, so that no draw after the
reset repeats one before it. -/
def State.takeReset (s : State) : State :=
  { State.reset with callers := restartedCallers s.callers, draws := s.draws }

end Sys2Proof.Machine
end

