-- ==== Sys2Proof/Machine/Color.lean ====
section
/-! DEFINITION. color_lut (`40_color_model.md`): ATTR_NEW, ATTR_SET_FG, ATTR_SET_BG, LOAD_PALETTE.
Each meaning checks in the order of `60_exceptions.md` R148; a halted block runs nothing (R151). -/

namespace Sys2Proof.Machine

/-- ATTR_NEW (`40_color_model.md` R88): pure, no lock, either mode (R92). -/
def execAttrNew (fg bg : BitVec 4) (s : State) : Result :=
  if s.block.halted then s.hold
  else s.complete (.okByte (attrByte fg bg)) s.block

/-- ATTR_SET_FG (`40_color_model.md` R89): pure, no lock, either mode (R92). -/
def execAttrSetFg (attr : Byte) (color : BitVec 4) (s : State) : Result :=
  if s.block.halted then s.hold
  else s.complete (.okByte (attrWithFg attr color)) s.block

/-- ATTR_SET_BG (`40_color_model.md` R90): pure, no lock, either mode (R92). -/
def execAttrSetBg (attr : Byte) (color : BitVec 4) (s : State) : Result :=
  if s.block.halted then s.hold
  else s.complete (.okByte (attrWithBg attr color)) s.block

/-- LOAD_PALETTE (`40_color_model.md` R91). The length check is the decoder's (R77): a payload of
another length never comes from it. -/
def execLoadPalette (payload : List Byte) (s : State) : Result :=
  if s.block.halted then s.hold
  else if payload.length ≠ Config.paletteBytes then s.raise .illegalCommand
  else if s.block.lockOwner ≠ some s.issuer then s.raise .notOwner
  else if paletteOutOfRange payload then s.raise .paletteRange
  else s.complete .ok (s.block.loadLut s.issuer payload)

end Sys2Proof.Machine
end

