-- ==== Sys2Proof/Machine/Lock.lean ====
section
/-! DEFINITION. The device lock (`42_device_lock.md`): LOCK and UNLOCK. -/

namespace Sys2Proof.Machine

/-- LOCK (`42_device_lock.md` R116): the owner's own LOCK faults, another caller's holds (R117). -/
def execLock (s : State) : Result :=
  if s.block.halted then s.hold
  else if s.block.lockOwner = some s.issuer then s.raise .lockHeld
  else if s.block.lockOwner ≠ none then s.hold
  else s.complete .ok (s.block.acquire s.issuer)

/-- UNLOCK (`42_device_lock.md` R118). -/
def execUnlock (s : State) : Result :=
  if s.block.halted then s.hold
  else if s.block.lockOwner ≠ some s.issuer then s.raise .notOwner
  else s.complete .ok (s.block.release s.issuer)

end Sys2Proof.Machine
end

