-- ==== Sys2Proof/Machine/Planar.lean ====
section
/-! DEFINITION. planar_framebuffer_writer (`43_planar_writer.md`): SET_MODE, SET_PIXEL,
CLEAR_SCREEN. Each is composite: it checks, takes the lock, does its body and releases the lock, as
one step (`42_device_lock.md` R119, `20_memory.md` R57). -/

namespace Sys2Proof.Machine

/-- The body of SET_MODE, lock included (`43_planar_writer.md` R130); `n` numbers its draws. -/
def Block.setMode (c : CallerId) (n : Nat) (b : Block) : Block :=
  let b := b.acquire c
  let b := b.modeSwitch c n
  let b := b.loadLut c Config.defaultPalette
  b.release c

/-- SET_MODE (`43_planar_writer.md` R130), legal in either mode. -/
def execSetMode (s : State) : Result :=
  if s.block.halted then s.hold
  else if s.block.lockOwner = some s.issuer then s.raise .lockHeld
  else if s.block.lockOwner ≠ none then s.hold
  else
    let b := s.block.setMode s.issuer s.draws.modeSwitches
    { s with draws := { s.draws with modeSwitches := s.draws.modeSwitches + 1 } }.complete .ok b

/-- One plane's round of SET_PIXEL (`43_planar_writer.md` R132, R137): read plane select, plane
mask, read, merge the colour's bit `p` under `m`, write. -/
def Block.pixelRound (c : CallerId) (off : Nat) (m : Byte) (color : BitVec 4) (p : BitVec 2)
    (b : Block) : Block :=
  let b := b.writeReadPlane c p
  let b := b.writePlaneMask c (planeSelect p)
  let (t, b) := b.memRead c off
  let t := if color.getLsbD p.toNat then TByte.setBits t m else TByte.clearBits t m
  b.memWrite c off t

/-- The body of SET_PIXEL, lock included (`43_planar_writer.md` R132; WRITE_ENABLE first by
`90_conflicts.md` C2). -/
def Block.setPixel (c : CallerId) (x y : Nat) (color : BitVec 4) (b : Block) : Block :=
  let off := pixelOffset x y
  let m := pixelMask x
  let b := b.acquire c
  let b := b.writeWriteEnable c 0b0000#4
  let b := b.pixelRound c off m color 0#2
  let b := b.pixelRound c off m color 1#2
  let b := b.pixelRound c off m color 2#2
  let b := b.pixelRound c off m color 3#2
  b.release c

/-- SET_PIXEL (`43_planar_writer.md` R132). -/
def execSetPixel (x : BitVec 10) (y : BitVec 9) (color : BitVec 4) (s : State) : Result :=
  if s.block.halted then s.hold
  else if s.block.lockOwner = some s.issuer then s.raise .lockHeld
  else if s.block.lockOwner ≠ none then s.hold
  else if s.block.mode ≠ .gfx640 then s.raise .notInMode
  else if coordOutOfRange x.toNat y.toNat then s.raise .coordRange
  else s.complete .ok (s.block.setPixel s.issuer x.toNat y.toNat color)

/-- The first `n` writes of the clear, at offsets 0, 1, …, n − 1 in that order
(`43_planar_writer.md` R134). -/
def Block.clearSweep (c : CallerId) : (n : Nat) → Block → Block
  | 0, b => b
  | n + 1, b => (b.clearSweep c n).memWrite c n (TByte.ofByte 0x00#8)

/-- The body of CLEAR_SCREEN, lock included (`43_planar_writer.md` R134, `90_conflicts.md` C3).
Irreducible, so that no definitional check unrolls 76800 writes. -/
@[irreducible] def Block.clearScreen (c : CallerId) (b : Block) : Block :=
  let b := b.acquire c
  let b := b.writePlaneMask c 0b1111#4
  let b := b.writeWriteEnable c 0b0000#4
  let b := b.clearSweep c Config.windowBytes
  b.release c

/-- CLEAR_SCREEN (`43_planar_writer.md` R134). -/
def execClearScreen (s : State) : Result :=
  if s.block.halted then s.hold
  else if s.block.lockOwner = some s.issuer then s.raise .lockHeld
  else if s.block.lockOwner ≠ none then s.hold
  else if s.block.mode ≠ .gfx640 then s.raise .notInMode
  else s.complete .ok (s.block.clearScreen s.issuer)

end Sys2Proof.Machine
end

