-- ==== Sys2Proof/Machine/Register.lean ====
section
/-! DEFINITION. pixel_plane_selector (`41_register_layer.md`): SET_PLANE_MASK, SET_WRITE_ENABLE,
SET_READ_PLANE, FB_READ, FB_WRITE. All five need the issuing caller to hold the lock (R100). -/

namespace Sys2Proof.Machine

/-- SET_PLANE_MASK (`41_register_layer.md` R101), in either mode (R107). -/
def execSetPlaneMask (mask : BitVec 4) (s : State) : Result :=
  if s.block.halted then s.hold
  else if s.block.lockOwner ≠ some s.issuer then s.raise .notOwner
  else s.complete .ok (s.block.writePlaneMask s.issuer mask)

/-- SET_WRITE_ENABLE (`41_register_layer.md` R102), in either mode (R107). -/
def execSetWriteEnable (mask : BitVec 4) (s : State) : Result :=
  if s.block.halted then s.hold
  else if s.block.lockOwner ≠ some s.issuer then s.raise .notOwner
  else s.complete .ok (s.block.writeWriteEnable s.issuer mask)

/-- SET_READ_PLANE (`41_register_layer.md` R103), in either mode (R107). -/
def execSetReadPlane (plane : BitVec 2) (s : State) : Result :=
  if s.block.halted then s.hold
  else if s.block.lockOwner ≠ some s.issuer then s.raise .notOwner
  else s.complete .ok (s.block.writeReadPlane s.issuer plane)

/-- The draw an FB_READ makes, and the state whose next draw is a fresh one (`00_scope.md` R12). -/
def State.drawRead (s : State) : Byte × State :=
  (Config.readDraw s.draws.reads, { s with draws := { s.draws with reads := s.draws.reads + 1 } })

/-- FB_READ (`41_register_layer.md` R104). -/
def execFbRead (off : BitVec 17) (s : State) : Result :=
  if s.block.halted then s.hold
  else if s.block.lockOwner ≠ some s.issuer then s.raise .notOwner
  else if s.block.mode ≠ .gfx640 then s.raise .notInMode
  else if offOutOfWindow off.toNat then s.raise .fbRange
  else if s.block.readPlane = .unset then s.raise .regUnset
  else
    let (t, b) := s.block.memRead s.issuer off.toNat
    let (drawn, s') := s.drawRead
    s'.complete (.okByte (TByte.resolve t drawn)) b

/-- FB_WRITE (`41_register_layer.md` R105). -/
def execFbWrite (off : BitVec 17) (data : Byte) (s : State) : Result :=
  if s.block.halted then s.hold
  else if s.block.lockOwner ≠ some s.issuer then s.raise .notOwner
  else if s.block.mode ≠ .gfx640 then s.raise .notInMode
  else if offOutOfWindow off.toNat then s.raise .fbRange
  else if s.block.planeMask = .unset ∨ s.block.writeEnable = .unset then s.raise .regUnset
  else s.complete .ok (s.block.memWrite s.issuer off.toNat (TByte.ofByte data))

end Sys2Proof.Machine
end

