-- ==== Sys2Proof/Machine/Dispatch.lean ====
section
/-! DEFINITION. One arm per command. -/

namespace Sys2Proof.Machine

def exec (i : Instr) (s : State) : Host.Outcome State Fault Refusal :=
  match i with
  | .setMode => Sys2Proof.Machine.execSetMode s
  | .clearScreen => Sys2Proof.Machine.execClearScreen s
  | .setPixel x y color => Sys2Proof.Machine.execSetPixel x y color s
  | .setPlaneMask mask => Sys2Proof.Machine.execSetPlaneMask mask s
  | .setWriteEnable mask => Sys2Proof.Machine.execSetWriteEnable mask s
  | .setReadPlane plane => Sys2Proof.Machine.execSetReadPlane plane s
  | .loadPalette payload => Sys2Proof.Machine.execLoadPalette payload s
  | .fbRead off => Sys2Proof.Machine.execFbRead off s
  | .fbWrite off data => Sys2Proof.Machine.execFbWrite off data s
  | .attrNew fg bg => Sys2Proof.Machine.execAttrNew fg bg s
  | .attrSetFg attr color => Sys2Proof.Machine.execAttrSetFg attr color s
  | .attrSetBg attr color => Sys2Proof.Machine.execAttrSetBg attr color s
  | .lock => Sys2Proof.Machine.execLock s
  | .unlock => Sys2Proof.Machine.execUnlock s

end Sys2Proof.Machine
end

