-- ==== Sys2Proof/Machine/Port.lean ====
section
/-! DEFINITION. The command port: which commands callers may issue, which are outstanding and enabled,
whose turn it is, and what a step has to do before a command runs. -/

namespace Sys2Proof.Machine

/-- The command a caller has outstanding: the one at its command index, once it has issued it
(`10_state.md` R21). -/
def Caller.outstanding (k : Caller) : Option Command :=
  if k.issued then k.sequence[k.index]? else none

/-- A caller may issue its next command: there is one, and none is outstanding (`10_state.md` R21). -/
def Caller.ready (k : Caller) : Bool := !k.issued && decide (k.index < k.sequence.length)

/-- The callers that may issue a command, by rising id. -/
def State.ready (s : State) : List CallerId := (s.callers.filter fun e => e.2.ready).map Prod.fst

/-- The outstanding transactions, by rising caller id. -/
def State.outstanding (s : State) : List Transaction :=
  s.callers.filterMap fun e => e.2.outstanding.map (Transaction.mk e.1)

/-- A transaction is enabled: the block is not halted, and the command is illegal, or does not take
the lock, or finds the lock free or its own (`42_device_lock.md` R117). -/
def Block.enables (b : Block) (t : Transaction) : Bool :=
  !b.halted &&
    match decode t.command.word t.command.payload with
    | .error _ => true
    | .ok i => !takesLock i || b.lockOwner == none || b.lockOwner == some t.caller

/-- The outstanding transactions that are enabled. -/
def State.enabled (s : State) : List Transaction := s.outstanding.filter s.block.enables

/-- What can happen next at the port: a caller issues its next command (`10_state.md` R21), or the
block executes an enabled transaction (`42_device_lock.md` R117). -/
inductive Turn where
  | issue (c : CallerId)
  | execute (t : Transaction)
  deriving DecidableEq, Repr

/-- Everything that can happen next at the port. -/
def State.turns (s : State) : List Turn := s.ready.map .issue ++ s.enabled.map .execute

/-- What happens next at the port, if anything can: any one of the turns, by the free number of this
turn, so that any enabled command may run (`42_device_lock.md` R120) and a caller may issue at any
time. One alone needs no choice. -/
def State.turn (s : State) : Option Turn :=
  match s.turns with
  | [] => none
  | [t] => some t
  | t :: ts => (t :: ts)[Config.arbiter s.draws.choices % (t :: ts).length]?

/-- One turn taken. -/
def State.countTurn (s : State) : State :=
  { s with draws := { s.draws with choices := s.draws.choices + 1 } }

/-- Caller `c` has issued its next command, which is outstanding from now on (`10_state.md` R21). -/
def State.issue (c : CallerId) (s : State) : State :=
  s.countTurn.setCaller c { s.caller c with issued := true }

/-- The state in which the granted transaction is the one being executed. -/
def State.grant (t : Transaction) (s : State) : State := { s.countTurn with port := t }

/-- What a step has to do: settle in a state without running a command, or run one. -/
inductive Fetched where
  | settled (s : State)
  | run (i : Instr) (s : State)
  deriving DecidableEq, Repr

/-- The step up to the command's own meaning: reset if the reset input is asserted
(`70_reset_and_hazards.md` R165); wait if no caller can issue a command and none is enabled (R166,
`42_device_lock.md` R117, `60_exceptions.md` R151); let a caller issue its command; or put the granted
transaction on the port, and raise ILLEGAL_COMMAND where it does not decode (`30_encoding.md` R75 to
R77). -/
def State.fetch (s : State) : Fetched :=
  if s.resetInput then .settled s.takeReset
  else
    match s.turn with
    | none => .settled s
    | some (.issue c) => .settled (s.issue c)
    | some (.execute t) =>
      match decode t.command.word t.command.payload with
      | .error _ => .settled ((s.grant t).raised .illegalCommand)
      | .ok i => .run i (s.grant t)

/-- A caller with no command outstanding and none to issue after the ones it has completed. -/
def Caller.quiet (k : Caller) : Caller :=
  { k with sequence := k.sequence.take k.index, issued := false }

/-- Every caller quiet, in canonical form. -/
def quietCallers : List (Nat × Caller) → List (Nat × Caller)
  | [] => []
  | (c, k) :: m =>
    if k.quiet = Caller.idle then quietCallers m else (c, k.quiet) :: quietCallers m

/-- A caller whose outstanding command is `cmd`. -/
def Caller.present (cmd : Command) (k : Caller) : Caller :=
  { k with
    sequence := k.sequence.take k.index ++ List.replicate (k.index - k.sequence.length) cmd ++ [cmd]
    issued := true }

/-- `cmd` presented as the only outstanding command, by the caller that holds the lock, or by caller 0
while the lock is free, with the reset input not asserted: the next step of a block that is not
halted executes it. -/
def State.present (cmd : Command) (s : State) : State :=
  let c := s.block.lockOwner.getD 0
  { s with
    callers := store Caller.idle (quietCallers s.callers) c ((s.caller c).present cmd)
    resetInput := false }

/-- The command in a table-numbered bit string (`decodeTableWord`'s numbering). -/
def tableCommand (nbits w : Nat) : Command :=
  let t := tableTransaction nbits w
  ⟨t.1, t.2⟩

end Sys2Proof.Machine
end

