-- ==== Sys2Proof/Machine/Step.lean ====
section
/-! DEFINITION. One step of the machine: one command executed as one atomic step
(`20_memory.md` R56), or a caller issuing its next command (`10_state.md` R21), or the reset, or
waiting. -/

namespace Sys2Proof.Machine

/-- One step: what `State.fetch` finds to do. -/
def step (s : State) : Host.Outcome State Fault Refusal :=
  match s.fetch with
  | .settled s' => .next s'
  | .run i s' => exec i s'

/-- `s` with the table-numbered instruction as the command the next step executes. -/
def State.withFetchWord (s : State) (nbits w : Nat) : State := s.present (tableCommand nbits w)

end Sys2Proof.Machine
end

