-- ==== Sys2Proof/Machine/Observe.lean ====
section
/-! DEFINITION. What an observer computes from the state and no command does: the pixel code, the
displayed colour and the frame-buffer base (`10_state.md` R34, R35; `20_memory.md` R53). -/

namespace Sys2Proof.Machine

/-- Bit `p` of the pixel code of (x, y), `?` where the plane's bit is (`10_state.md` R34). -/
def Block.pixelCodeBit (b : Block) (x y : Nat) (p : Fin 4) : TBit :=
  (b.planeByte p (pixelOffset x y))[pixelBit x]'(by unfold pixelBit; omega)

/-- The pixel code of (x, y), bit by bit (`10_state.md` R34). -/
def Block.pixelCode (b : Block) (x y : Nat) : Vector TBit 4 :=
  Vector.ofFn fun p : Fin 4 => b.pixelCodeBit x y p

/-- A 4-bit code as known bits. -/
def knownCode (color : BitVec 4) : Vector TBit 4 :=
  Vector.ofFn fun p : Fin 4 => .known (color.getLsbD p)

/-- The value of a pixel code all of whose bits are known. -/
def codeValue (code : Vector TBit 4) : Option (BitVec 4) :=
  match code[3], code[2], code[1], code[0] with
  | .known b3, .known b2, .known b1, .known b0 =>
    some (BitVec.ofBool b3 ++ BitVec.ofBool b2 ++ BitVec.ofBool b1 ++ BitVec.ofBool b0)
  | _, _, _, _ => none

/-- The displayed colour of (x, y) (`10_state.md` R35); `none` where the spec leaves it undefined: a
`?` in the pixel code, or an UNSET channel. -/
def Block.displayedColour (b : Block) (x y : Nat) : Option (BitVec 6 × BitVec 6 × BitVec 6) :=
  match codeValue (b.pixelCode x y) with
  | none => none
  | some code =>
    let e := b.lut[(Config.pixelLutIndex code).toFin]
    match e.red, e.green, e.blue with
    | .set r, .set g, .set bl => some (r, g, bl)
    | _, _, _ => none

/-- FB_BASE, the bus address of offset 0 since the last mode switch (`20_memory.md` R53). -/
def State.fbBase (s : State) : Nat := Config.fbBase s.draws.modeSwitches

/-! ## The event log as a history -/

/-- The caller an event belongs to (`10_state.md` R30). -/
def Event.caller : Event → CallerId
  | .acquire c | .release c | .regWrite c _ | .rd c _ _ _ | .wr c _ _ _ _ | .pal c | .mode c => c

/-- The part of the block the event log tells: everything but the fault record and the LUT's
contents, which no event carries. -/
structure View where
  mode        : Mode
  planeMask   : Reg 4
  writeEnable : Reg 4
  readPlane   : Reg 2
  lockOwner   : Option CallerId
  planes      : Vector Memory 4
  deriving DecidableEq, Repr

/-- What the log tells of a block. -/
def Block.view (b : Block) : View :=
  ⟨b.mode, b.planeMask, b.writeEnable, b.readPlane, b.lockOwner, b.planes⟩

/-- The view at reset (`10_state.md` R38). -/
def View.reset : View := Block.reset.view

/-- What one event does to the view: the register write, lock change, frame-buffer write or mode
switch it records (`10_state.md` R30). -/
def View.apply (v : View) : Event → View
  | .acquire c => { v with lockOwner := some c }
  | .release _ => { v with lockOwner := none }
  | .regWrite _ (.planeMask m) => { v with planeMask := .set m }
  | .regWrite _ (.writeEnable m) => { v with writeEnable := .set m }
  | .regWrite _ (.readPlane p) => { v with readPlane := .set p }
  | .rd _ _ _ _ => v
  | .wr _ off t pm we =>
    { v with planes := Vector.ofFn fun p : Fin 4 => writePlane off t pm we p v.planes[p] }
  | .pal _ => v
  | .mode _ =>
    { v with mode := .gfx640, planeMask := .unset, writeEnable := .unset, readPlane := .unset,
             planes := Vector.replicate 4 [] }

/-- An event the block may make in a view: the lock is taken only when free; everything else is done
by the lock's owner; an access is made in GFX640, inside the window, under the registers as they
stand, and a read records the byte that is there. -/
def View.Legal (v : View) : Event → Prop
  | .acquire _ => v.lockOwner = none
  | .release c | .regWrite c _ | .pal c | .mode c => v.lockOwner = some c
  | .rd c p off t =>
    v.lockOwner = some c ∧ v.mode = .gfx640 ∧ off < Config.windowBytes ∧ v.readPlane = .set p ∧
      t = v.planes[planeIndex p].read off
  | .wr c off _ pm we =>
    v.lockOwner = some c ∧ v.mode = .gfx640 ∧ off < Config.windowBytes ∧
      v.planeMask = .set pm ∧ v.writeEnable = .set we

/-- A list of events each of which is legal where it stands. -/
def View.LegalHistory : View → List Event → Prop
  | _, [] => True
  | v, e :: es => v.Legal e ∧ (v.apply e).LegalHistory es

/-- The view a list of events leaves. -/
def View.replay (v : View) (log : List Event) : View := log.foldl View.apply v

end Sys2Proof.Machine
end

