-- ==== Sys2Proof/Safety.lean ====
section
/-! DEFINITION. What a good run is, in the terms claims use: a block that has not halted, a complete
run (`70_reset_and_hazards.md` R178), and a stuck one (`42_device_lock.md` R122). -/

namespace Sys2Proof.Machine

/-- FAULT = 0: no command has faulted (`10_state.md` R29). -/
abbrev State.Safe (s : State) : Prop := s.block.fault = 0#4

/-- The run is complete (`70_reset_and_hazards.md` R178): every caller has issued its whole sequence
and received every response, nothing is outstanding, the lock is free and FAULT = 0. -/
abbrev State.Complete (s : State) : Prop :=
  (∀ e ∈ s.callers,
    e.2.index = e.2.sequence.length ∧ e.2.responses.length = e.2.sequence.length) ∧
  s.outstanding = [] ∧ s.block.lockOwner = none ∧ s.Safe

/-- Commands are outstanding and none of them is enabled: they hold (`42_device_lock.md` R117, R122)
or the block is halted (`60_exceptions.md` R151). -/
abbrev State.Waiting (s : State) : Prop := s.outstanding ≠ [] ∧ s.enabled = []

/-! ## The invariant -/

/-- A LUT entry with no UNSET channel. -/
abbrev LutEntry.AllSet (e : LutEntry) : Prop := e.red ≠ .unset ∧ e.green ≠ .unset ∧ e.blue ≠ .unset

/-- The block's invariant: every plane in canonical form (`10_state.md` R31); no plane byte known
while MODE is OTHER (`20_memory.md` R63); no LUT channel UNSET in GFX640 (`43_planar_writer.md`
R130); the owner a caller (`10_state.md` R28); the fault record whole or empty, its code never a
reserved one, and the block halted exactly when there is one (R29, `60_exceptions.md` R146, R151). -/
structure Block.Inv (b : Block) : Prop where
  planesWf    : ∀ p : Fin 4, b.planes[p].wf
  otherMode   : b.mode = .other → ∀ p : Fin 4, b.planes[p] = []
  lutSet      : b.mode = .gfx640 → ∀ i : Fin 256, b.lut[i].AllSet
  ownerCaller : ∀ c, b.lockOwner = some c → c < Config.nCallers
  halted      : b.halted = true ↔ b.fault ≠ 0#4
  faultCode   : b.fault.toNat ≤ 8
  faultCaller : b.faultCaller.isSome = b.halted
  faultWord   : b.faultWord.isSome = b.halted
  faultIsCaller : ∀ c, b.faultCaller = some c → c < Config.nCallers

/-- The callers' invariant: a canonical map over ids below N_CALLERS (`60_exceptions.md` R158); each
caller has received as many responses as its command index says (R161), its index is a position in its
sequence or its end, and where it has issued a command there is one (`10_state.md` R21). -/
structure CallersInv (m : List (Nat × Caller)) : Prop where
  canonical : Canonical Caller.idle m
  idInRange : ∀ e ∈ m, e.1 < Config.nCallers
  responses : ∀ e ∈ m, e.2.responses.length = e.2.index
  index     : ∀ e ∈ m, e.2.index ≤ e.2.sequence.length
  issued    : ∀ e ∈ m, e.2.issued = true → e.2.index < e.2.sequence.length

/-- The machine's invariant. -/
structure State.Inv (s : State) : Prop where
  block   : s.block.Inv
  callers : CallersInv s.callers

/-- The event log is a legal history of the block from reset, and tells its present view
(`10_state.md` R30, `20_memory.md` R55, R57). -/
structure Block.HistoryInv (b : Block) : Prop where
  legal  : View.reset.LegalHistory b.log
  replay : View.reset.replay b.log = b.view

end Sys2Proof.Machine
end

