-- ==== Sys2Proof/Certificates/Slice0/Obligations.lean ====
section
/-! DEFINITION. The statements for the provers. `s.issuer` is the caller that issued the command being
executed; `s.respond r` is `s` after that caller received the response `r`; `s.raised f` is `s` after
the command raised the fault `f`. What those two leave is stated by `RespondGivesOneResponse` and
`RaisedFaultWritesTheRecordOnly`. -/

open Sys2Proof Sys2Proof.Machine

/-- Words with opcode `op` and a bit of `bits` set are illegal, whatever the payload: the decoding half
of "ILLEGAL_COMMAND if reserved bits are not zero". That an illegal word raises ILLEGAL_COMMAND is
`IllegalTransactionRaisesIllegalCommand`. -/
def Sys2Proof.ReservedBitsRefused (op : BitVec 4) (bits : Word) : Prop :=
  ∀ (w : Word) (payload : List Byte), field w 31 28 = op → w &&& bits ≠ 0#32 →
    decode w payload = .error .reservedBits

/-! ## Encoding -/

/-- Decoding an encoded well-formed command gives it back, every operand at every value
(`30_encoding.md` R67 to R74). -/
def Obligations.DecodeOfEncodeGivesTheCommand : Prop :=
  ∀ i : Instr, i.wellFormed = true → decode (encodeWord i) (encodePayload i) = .ok i

/-- A decoded command is well formed, and encoding it gives back its word and its payload, so no bit of
a legal transaction is dropped (`30_encoding.md` R67 to R79). -/
def Obligations.EncodeOfDecodeGivesTheTransaction : Prop :=
  ∀ (w : Word) (payload : List Byte) (i : Instr), decode w payload = .ok i →
    i.wellFormed = true ∧ encodeWord i = w ∧ encodePayload i = payload

/-- `30_encoding.md` R79: a transaction decodes to a row's command, fields extracted, exactly when the
word matches the row's mask and match and the payload has the row's length; no other transaction is
legal; at most one row matches any word. -/
def Obligations.DecodesExactlyTheTableRows : Prop :=
  (∀ (w : Word) (payload : List Byte), ∀ row ∈ opcodeTable,
    w &&& row.mask = row.pattern → payload.length = row.opcode.payloadLength →
      decode w payload = .ok (row.opcode.assemble w payload)) ∧
  (∀ (w : Word) (payload : List Byte),
    (∀ row ∈ opcodeTable,
      ¬ (w &&& row.mask = row.pattern ∧ payload.length = row.opcode.payloadLength)) →
      ∃ e, decode w payload = .error e) ∧
  (∀ w : Word, ∀ row ∈ opcodeTable, ∀ row' ∈ opcodeTable,
    w &&& row.mask = row.pattern → w &&& row'.mask = row'.pattern → row = row')

/-- `20_memory.md` R50, `30_encoding.md` R80: on a byte transport the word comes first, its byte 0
holding bits 7:0 and its byte 3 bits 31:24, and the payload follows. That fewer than four bytes hold no
command, and are refused by a name of their own, is the model's inference (DEDUCED, log 11); no rule
says it. -/
def Obligations.ByteTransportCarriesTheTransaction : Prop :=
  (∀ (w : Word) (payload : List Byte),
    decodeBytes ([w.extractLsb' 0 8, w.extractLsb' 8 8, w.extractLsb' 16 8, w.extractLsb' 24 8] ++
      payload) = decode w payload) ∧
  (∀ bs : List Byte, bs.length < 4 → decodeBytes bs = .error .truncated)

/-- Words of `95_test_vectors.md` section 2.1, written out in full, decode to their commands or are
illegal. -/
def Obligations.SampleWordsDecode : Prop :=
  decode 0x10000000#32 [] = .ok .setMode ∧
  decode 0x20000000#32 [] = .ok .clearScreen ∧
  decode 0x39FFBE00#32 [] = .ok (.setPixel 639 479 0) ∧
  decode 0x40000004#32 [] = .ok (.setPlaneMask 0b0100) ∧
  decode 0x60000003#32 [] = .ok (.setReadPlane 3) ∧
  decode 0x80012BFF#32 [] = .ok (.fbRead 76799) ∧
  decode 0x912BFF12#32 [] = .ok (.fbWrite 76799 0x12) ∧
  decode 0xA00000E1#32 [] = .ok (.attrNew 0x1 0xE) ∧
  decode 0xB000E104#32 [] = .ok (.attrSetFg 0xE1 0x4) ∧
  decode 0xD0000000#32 [] = .ok .lock ∧
  decode 0xF0000000#32 [] = .error .reservedOpcode ∧
  decode 0x30000010#32 [] = .error .reservedBits ∧
  decode 0x10000000#32 [0x00#8] = .error .payloadLength

/-- `30_encoding.md` R75, R76, R77: a transaction the block grants with a reserved opcode, a non-zero
reserved bit or a wrong payload length raises ILLEGAL_COMMAND and has no other effect; the all-zero
word is one of them. The granted transaction on the port and the turn counter are the model's own
(log 3, 5, 10). The last clause is the model's inference (DEDUCED, log 12): `exec` of a LOAD_PALETTE
term whose payload is not 768 bytes long, which no transaction decodes to, raises ILLEGAL_COMMAND
too. -/
def Obligations.IllegalTransactionRaisesIllegalCommand : Prop :=
  (∀ (s : State) (t : Transaction), s.resetInput = false → s.turn = some (.execute t) →
    (field t.command.word 31 28 = 0x0#4 ∨ field t.command.word 31 28 = 0xF#4 ∨
      ∃ row ∈ opcodeTable, field t.command.word 31 28 = field row.pattern 31 28 ∧
        (t.command.word &&& row.mask ≠ row.pattern ∨
          t.command.payload.length ≠ row.opcode.payloadLength)) →
    step s = .next { s.grant t with
      block := s.block.raiseFault .illegalCommand t.caller t.command.word }) ∧
  (∀ payload, ∃ e, decode 0#32 payload = .error e) ∧
  (∀ (s : State) (payload : List Byte), s.block.halted = false → payload.length ≠ 768 →
    exec (.loadPalette payload) s = .next (s.raised .illegalCommand))

/-! ## The step -/

/-- A step runs the decoded command: when the arbiter grants a transaction that decodes to `i`, the
step is `exec i` with that transaction on the port and the turn counted (`20_memory.md` R56). The port
and the counter are the model's own (log 3, 5, 10). -/
def Obligations.StepRunsTheDecodedCommand : Prop :=
  ∀ (s : State) (t : Transaction) (i : Instr), s.resetInput = false →
    s.turn = some (.execute t) → decode t.command.word t.command.payload = .ok i →
    step s = exec i { s with port := t, draws := { s.draws with choices := s.draws.choices + 1 } }

/-- The word `withFetchWord` places is the command the next step runs, for a block that is not halted
(the model's own loader, log 2). -/
def Obligations.PlacedWordRunsNext : Prop :=
  ∀ (s : State) (nbits w : Nat) (i : Instr), s.block.halted = false →
    decodeTableWord nbits w = some i →
    ∃ s', step (s.withFetchWord nbits w) = exec i s' ∧
      s'.block = s.block ∧ s'.issuer = s.block.lockOwner.getD 0 ∧
      s'.port.command.word = encodeWord i

/-- `42_device_lock.md` R120: the next turn is an enabled command that runs, or a caller that issues
its next command, and which of all of them it is the free number of this turn says, so every enabled
command may be the one that runs; there is no turn exactly when no command is enabled and no caller can
issue one. That one free number settles both choices is the model's (log 1, 3). -/
def Obligations.AnyEnabledCommandMayBeGranted : Prop :=
  ∀ s : State,
    s.turn = (s.ready.map Turn.issue ++ s.enabled.map Turn.execute)[
      Config.arbiter s.draws.choices % (s.ready.length + s.enabled.length)]? ∧
    (s.turn = none ↔ s.ready = [] ∧ s.enabled = [])

/-- `42_device_lock.md` R117: an enabled transaction is a caller's one outstanding command, the block
is not halted, and the command is illegal, or is none of LOCK, SET_MODE, SET_PIXEL and CLEAR_SCREEN,
or finds the lock free or its caller's own; and each such transaction is enabled. That a caller's
outstanding command is held as a bit of State and the command at its index in its sequence is the
model's way (log 1). -/
def Obligations.EnabledExactlyWhenTheLockAllows : Prop :=
  ∀ (s : State), s.Inv → ∀ t : Transaction, t ∈ s.enabled ↔
    (s.caller t.caller).issued = true ∧
    (s.caller t.caller).sequence[(s.caller t.caller).index]? = some t.command ∧
    s.block.halted = false ∧
    ((∃ e, decode t.command.word t.command.payload = .error e) ∨
      (∃ i, decode t.command.word t.command.payload = .ok i ∧
        i ≠ .lock ∧ i ≠ .setMode ∧ i ≠ .clearScreen ∧ ∀ x y c, i ≠ .setPixel x y c) ∨
      s.block.lockOwner = none ∨ s.block.lockOwner = some t.caller)

/-- `42_device_lock.md` R117, `60_exceptions.md` R151, `70_reset_and_hazards.md` R166: a step with
nothing enabled leaves the block as it is and completes no command: at most a caller issues one, and
what was outstanding stays so; with nothing to issue either, it changes nothing at all. In particular a
halted block keeps its fault record, lock owner, registers, planes, LUT and event log, and its
outstanding commands, until reset. That waiting answers the same state (DEDUCED, log
9), and that a caller may issue in such a step (DESIGN CHOICE, log 1), is the model's. -/
def Obligations.NothingEnabledNothingChanges : Prop :=
  (∀ s : State, s.resetInput = false → s.ready = [] → s.enabled = [] → step s = .next s) ∧
  (∀ s : State, s.resetInput = false → (s.enabled = [] ∨ s.block.halted = true) →
    ∃ t, step s = .next t ∧ t.block = s.block ∧
      ∀ c, (t.caller c).sequence = (s.caller c).sequence ∧ (t.caller c).index = (s.caller c).index ∧
        (t.caller c).responses = (s.caller c).responses ∧
        ((s.caller c).issued = true → (t.caller c).issued = true)) ∧
  (∀ (s : State) (i : Instr), s.block.halted = true → exec i s = .next s)

/-- `42_device_lock.md` R122: if the owner of the lock has nothing outstanding and every outstanding
command takes the lock, none of them runs: the step leaves the block as it is, faults nothing and
completes no command; the run is not complete. When no caller has a command left to issue, the step
changes nothing, so this is for ever. That callers issue in steps of their own is the model's (DESIGN
CHOICE, log 1). -/
def Obligations.UnreleasedLockBlocksItsTakers : Prop :=
  ∀ (s : State) (c : CallerId), s.resetInput = false → s.block.lockOwner = some c →
    (∀ t ∈ s.outstanding, t.caller ≠ c ∧
      ∃ i, decode t.command.word t.command.payload = .ok i ∧
        (i = .lock ∨ i = .setMode ∨ i = .clearScreen ∨ ∃ x y k, i = .setPixel x y k)) →
    (∃ t, step s = .next t ∧ t.block = s.block ∧
      ∀ d, (t.caller d).index = (s.caller d).index ∧
        (t.caller d).responses = (s.caller d).responses) ∧
    (s.ready = [] → step s = .next s) ∧
    ¬ s.Complete ∧ (s.outstanding ≠ [] → s.Waiting)

/-- `70_reset_and_hazards.md` R178: in a complete run every caller has issued its whole sequence and
received a response to each command, and nothing more happens until reset; and a run is complete once
no command is outstanding, no caller has one left to issue, the lock is free and FAULT = 0. -/
def Obligations.CompleteRunStays : Prop :=
  ∀ s : State, s.Inv → s.resetInput = false →
    (s.Complete → step s = .next s ∧
      ∀ c, (s.caller c).index = (s.caller c).sequence.length ∧
        (s.caller c).responses.length = (s.caller c).sequence.length) ∧
    (s.outstanding = [] → s.ready = [] → s.block.lockOwner = none → s.Safe → s.Complete)

/-- No step stops the machine: every outcome is a next state. -/
def Obligations.EveryStepHasANextState : Prop := ∀ s : State, ∃ t, step s = .next t

/-! ## Reset -/

/-- `10_state.md` R38: every piece of state at reset. (The callers' sequences, the port, the counters and the reset input at
reset are the model's choice, log 1 and 5; they are not stated here.) -/
def Obligations.ResetLeavesTheResetValues : Prop :=
  State.reset.block.mode = .other ∧ State.reset.block.planeMask = .unset ∧
  State.reset.block.writeEnable = .unset ∧ State.reset.block.readPlane = .unset ∧
  State.reset.block.lockOwner = none ∧ State.reset.block.fault = 0#4 ∧
  State.reset.block.faultCaller = none ∧ State.reset.block.faultWord = none ∧
  (∀ (p : Fin 4) (off : Nat) (i : Fin 8), (State.reset.block.planeByte p off)[i] = .unknown) ∧
  (∀ i : Fin 256, State.reset.block.lut[i] = ⟨.unset, .unset, .unset⟩) ∧
  State.reset.block.log = [] ∧ (∀ c, (State.reset.caller c).index = 0)

/-- `70_reset_and_hazards.md` R165, `60_exceptions.md` R158: a step with the reset input asserted puts
the block at its reset values from any state, halted or not, and every caller's command index at 0;
every outstanding command is discarded without a response, so none is outstanding afterwards. That each
caller keeps its sequence, that the received responses are cleared, and that the draw counters run on,
are the model's choice (log 6). -/
def Obligations.ResetStepRestoresTheBlock : Prop :=
  ∀ s : State, CallersInv s.callers → s.resetInput = true →
    ∃ t, step s = .next t ∧ t.block = Block.reset ∧ t.resetInput = false ∧ t.draws = s.draws ∧
      t.outstanding = [] ∧
      ∀ c, t.caller c = { sequence := (s.caller c).sequence, index := 0, issued := false
                          responses := [] }

/-! ## Faults and responses -/

/-- `60_exceptions.md` R150: raising a fault writes FAULT, FAULT_CALLER, FAULT_WORD and the halt, and
changes no register, plane, LUT entry, lock owner or event; no response is returned. R146: the
codes. -/
def Obligations.RaisedFaultWritesTheRecordOnly : Prop :=
  (∀ (f : FaultCode) (s : State), s.raised f = { s with block := { s.block with
      fault := f.code, faultCaller := some s.issuer, faultWord := some s.port.command.word,
      halted := true } }) ∧
  FaultCode.illegalCommand.code = 1#4 ∧ FaultCode.notOwner.code = 2#4 ∧
  FaultCode.lockHeld.code = 3#4 ∧ FaultCode.notInMode.code = 4#4 ∧
  FaultCode.coordRange.code = 5#4 ∧ FaultCode.fbRange.code = 6#4 ∧
  FaultCode.regUnset.code = 7#4 ∧ FaultCode.paletteRange.code = 8#4

/-- `60_exceptions.md` R161, `10_state.md` R21: a response goes to the issuing caller alone, which has
received one more response, has no command outstanding, and whose command index is one higher; the
block, the port, the counters and the other callers are unchanged. -/
def Obligations.RespondGivesOneResponse : Prop :=
  ∀ (s : State) (r : Response),
    (s.respond r).block = s.block ∧ (s.respond r).port = s.port ∧
    (s.respond r).draws = s.draws ∧ (s.respond r).resetInput = s.resetInput ∧
    (s.respond r).caller s.issuer =
      { sequence := (s.caller s.issuer).sequence
        index := (s.caller s.issuer).index + 1
        issued := false
        responses := (s.caller s.issuer).responses ++ [r] } ∧
    ∀ c, c ≠ s.issuer → (s.respond r).caller c = s.caller c

/-- Every command, from every state, holds, faults or completes, and nothing else: it holds exactly
when the block is halted or it takes a lock that another caller has; a fault leaves the state it
found plus the fault record; a completed command gives its issuer one response, with a byte exactly
for FB_READ and the ATTR commands, and changes no fault record (`42_device_lock.md` R117,
`60_exceptions.md` R150, R161). -/
def Obligations.EveryCommandHoldsFaultsOrCompletes : Prop :=
  ∀ (i : Instr) (s : State),
    let holds := s.block.halted = true ∨
      (takesLock i = true ∧ s.block.lockOwner ≠ none ∧ s.block.lockOwner ≠ some s.issuer)
    (holds → exec i s = .next s) ∧
    (¬ holds →
      (∃ f, exec i s = .next (s.raised f)) ∨
      ∃ r b draws, exec i s = .next ({ s with block := b, draws := draws }.respond r) ∧
        b.halted = false ∧ b.fault = s.block.fault ∧ b.faultCaller = s.block.faultCaller ∧
        b.faultWord = s.block.faultWord ∧
        ((∃ v, r = .okByte v) ↔ ((∃ off, i = .fbRead off) ∨ (∃ fg bg, i = .attrNew fg bg) ∨
          (∃ a c, i = .attrSetFg a c) ∨ (∃ a c, i = .attrSetBg a c))))

/-- `41_register_layer.md` R100: a primitive command or an UNLOCK from a caller that does not hold the
lock raises NOT_OWNER and has no other effect, whatever its operands and whatever MODE is. -/
def Obligations.NotOwnerIsRaisedFirst : Prop :=
  ∀ s : State, s.block.halted = false → s.block.lockOwner ≠ some s.issuer →
    (∀ m, exec (.setPlaneMask m) s = .next (s.raised .notOwner)) ∧
    (∀ m, exec (.setWriteEnable m) s = .next (s.raised .notOwner)) ∧
    (∀ p, exec (.setReadPlane p) s = .next (s.raised .notOwner)) ∧
    (∀ off, exec (.fbRead off) s = .next (s.raised .notOwner)) ∧
    (∀ off v, exec (.fbWrite off v) s = .next (s.raised .notOwner)) ∧
    (∀ payload, payload.length = 768 →
      exec (.loadPalette payload) s = .next (s.raised .notOwner)) ∧
    exec .unlock s = .next (s.raised .notOwner)

/-- `42_device_lock.md` R115, R119: the owner's own LOCK or composite command raises LOCK_HELD, and
another caller's holds, before any other check of the command. -/
def Obligations.LockIsCheckedBeforeModeAndRange : Prop :=
  ∀ (s : State) (i : Instr),
    (i = .lock ∨ i = .setMode ∨ i = .clearScreen ∨ ∃ x y c, i = .setPixel x y c) →
    s.block.halted = false →
    (s.block.lockOwner = some s.issuer → exec i s = .next (s.raised .lockHeld)) ∧
    (∀ c, s.block.lockOwner = some c → c ≠ s.issuer → exec i s = .next s)

/-- `20_memory.md` R63, `43_planar_writer.md` R136: in OTHER mode FB_READ, FB_WRITE, SET_PIXEL and
CLEAR_SCREEN raise NOT_IN_MODE once past the lock check, before any range or register check. -/
def Obligations.OtherModeRaisesNotInMode : Prop :=
  ∀ s : State, s.block.halted = false → s.block.mode = .other →
    (s.block.lockOwner = some s.issuer →
      (∀ off, exec (.fbRead off) s = .next (s.raised .notInMode)) ∧
      (∀ off v, exec (.fbWrite off v) s = .next (s.raised .notInMode))) ∧
    (s.block.lockOwner = none →
      (∀ x y c, exec (.setPixel x y c) s = .next (s.raised .notInMode)) ∧
      exec .clearScreen s = .next (s.raised .notInMode))

/-! ## color_lut -/

/-- `40_color_model.md` R88: ATTR_NEW responds with bg in the high nibble and fg in the low one, and
reads and writes no block state, with or without the lock, in either mode. -/
def Obligations.AttrNewPacksTheCodes : Prop :=
  ReservedBitsRefused 0xA#4 0x0FFFFF00#32 ∧
  ∀ (fg bg : BitVec 4) (s : State), encodeWord (.attrNew fg bg) = 0xA#4 ++ 0#20 ++ bg ++ fg ∧
    (s.block.halted = false →
      exec (.attrNew fg bg) s = .next (s.respond (.okByte (bg ++ fg))))

/-- `40_color_model.md` R89: ATTR_SET_FG responds with the attribute byte whose low nibble is the code
and whose high nibble is attr's, and reads and writes no block state. -/
def Obligations.AttrSetFgReplacesTheLowNibble : Prop :=
  ReservedBitsRefused 0xB#4 0x0FFF00F0#32 ∧
  ∀ (attr : Byte) (c : BitVec 4) (s : State),
    encodeWord (.attrSetFg attr c) = 0xB#4 ++ 0#12 ++ attr ++ 0#4 ++ c ∧
    (s.block.halted = false →
      exec (.attrSetFg attr c) s = .next (s.respond (.okByte (attr.extractLsb' 4 4 ++ c))))

/-- `40_color_model.md` R90: ATTR_SET_BG responds with the attribute byte whose high nibble is the
code and whose low nibble is attr's, and reads and writes no block state. -/
def Obligations.AttrSetBgReplacesTheHighNibble : Prop :=
  ReservedBitsRefused 0xC#4 0x0FFF00F0#32 ∧
  ∀ (attr : Byte) (c : BitVec 4) (s : State),
    encodeWord (.attrSetBg attr c) = 0xC#4 ++ 0#12 ++ attr ++ 0#4 ++ c ∧
    (s.block.halted = false →
      exec (.attrSetBg attr c) s = .next (s.respond (.okByte (c ++ attr.extractLsb' 0 4))))

/-- `40_color_model.md` R91: LOAD_PALETTE by the lock's owner raises PALETTE_RANGE if a payload byte is
above 63; otherwise, in either mode, channel k of entry i becomes payload byte 3i + k for every i and
k, the load is logged, and nothing else changes. -/
def Obligations.LoadPaletteReplacesTheLut : Prop :=
  ReservedBitsRefused 0x7#4 0x0FFFFFFF#32 ∧
  (∀ (w : Word) (payload : List Byte), field w 31 28 = 0x7#4 → payload.length ≠ 768 →
    ∃ e, decode w payload = .error e) ∧
  (∀ payload, encodeWord (.loadPalette payload) = 0x70000000#32) ∧
  ∀ (payload : List Byte) (hlen : payload.length = 768) (s : State), s.block.halted = false →
    (s.block.lockOwner ≠ some s.issuer →
      exec (.loadPalette payload) s = .next (s.raised .notOwner)) ∧
    (s.block.lockOwner = some s.issuer → (∃ v ∈ payload, 63 < v.toNat) →
      exec (.loadPalette payload) s = .next (s.raised .paletteRange)) ∧
    (s.block.lockOwner = some s.issuer → (∀ v ∈ payload, v.toNat ≤ 63) →
      ∃ lut, exec (.loadPalette payload) s = .next ({ s with block := { s.block with
          lut := lut, log := s.block.log ++ [Event.pal s.issuer] } }.respond .ok) ∧
        ∀ i : Fin 256, ∃ r g b : BitVec 6, lut[i] = ⟨.set r, .set g, .set b⟩ ∧
          r.toNat = (payload[3 * i.val]'(by omega)).toNat ∧
          g.toNat = (payload[3 * i.val + 1]'(by omega)).toNat ∧
          b.toNat = (payload[3 * i.val + 2]'(by omega)).toNat)

/-- `40_color_model.md` R94: DEFAULT_PALETTE has 768 bytes, each at most 63. -/
def Obligations.DefaultPaletteIsAPalette : Prop :=
  Config.defaultPalette.length = 768 ∧ ∀ v ∈ Config.defaultPalette, v.toNat ≤ 63

/-! ## pixel_plane_selector -/

/-- `41_register_layer.md` R101: SET_PLANE_MASK by the lock's owner writes PLANE_MASK and logs the
write, in either mode, and changes nothing else; another caller gets NOT_OWNER. -/
def Obligations.SetPlaneMaskWritesPlaneMask : Prop :=
  ReservedBitsRefused 0x4#4 0x0FFFFFF0#32 ∧
  ∀ (mask : BitVec 4) (s : State),
    encodeWord (.setPlaneMask mask) = 0x4#4 ++ 0#24 ++ mask ∧
    (s.block.halted = false → s.block.lockOwner ≠ some s.issuer →
      exec (.setPlaneMask mask) s = .next (s.raised .notOwner)) ∧
    (s.block.halted = false → s.block.lockOwner = some s.issuer →
      exec (.setPlaneMask mask) s = .next ({ s with block := { s.block with
        planeMask := .set mask
        log := s.block.log ++ [Event.regWrite s.issuer (.planeMask mask)] } }.respond .ok))

/-- `41_register_layer.md` R102: SET_WRITE_ENABLE by the lock's owner writes WRITE_ENABLE and logs the
write, in either mode, and changes nothing else; another caller gets NOT_OWNER. -/
def Obligations.SetWriteEnableWritesWriteEnable : Prop :=
  ReservedBitsRefused 0x5#4 0x0FFFFFF0#32 ∧
  ∀ (mask : BitVec 4) (s : State),
    encodeWord (.setWriteEnable mask) = 0x5#4 ++ 0#24 ++ mask ∧
    (s.block.halted = false → s.block.lockOwner ≠ some s.issuer →
      exec (.setWriteEnable mask) s = .next (s.raised .notOwner)) ∧
    (s.block.halted = false → s.block.lockOwner = some s.issuer →
      exec (.setWriteEnable mask) s = .next ({ s with block := { s.block with
        writeEnable := .set mask
        log := s.block.log ++ [Event.regWrite s.issuer (.writeEnable mask)] } }.respond .ok))

/-- `41_register_layer.md` R103: SET_READ_PLANE by the lock's owner writes READ_PLANE and logs the
write, in either mode, and changes nothing else; another caller gets NOT_OWNER. -/
def Obligations.SetReadPlaneWritesReadPlane : Prop :=
  ReservedBitsRefused 0x6#4 0x0FFFFFFC#32 ∧
  ∀ (plane : BitVec 2) (s : State),
    encodeWord (.setReadPlane plane) = 0x6#4 ++ 0#26 ++ plane ∧
    (s.block.halted = false → s.block.lockOwner ≠ some s.issuer →
      exec (.setReadPlane plane) s = .next (s.raised .notOwner)) ∧
    (s.block.halted = false → s.block.lockOwner = some s.issuer →
      exec (.setReadPlane plane) s = .next ({ s with block := { s.block with
        readPlane := .set plane
        log := s.block.log ++ [Event.regWrite s.issuer (.readPlane plane)] } }.respond .ok))

/-- `41_register_layer.md` R104: FB_READ's faults in order, and its response: each bit of the byte of
plane READ_PLANE at off where it is known, and the drawn bit where it is `?`; only the event log and
the draw counter change. That the drawn bits are `Config.readDraw` of the model's own draw counter is
the model's choice (log 4); the draws are free, and the statement holds for every draw. -/
def Obligations.FbReadReturnsThePlaneByte : Prop :=
  ReservedBitsRefused 0x8#4 0x0FFE0000#32 ∧
  (∀ off, encodeWord (.fbRead off) = 0x8#4 ++ 0#11 ++ off) ∧
  ∀ (off : BitVec 17) (s : State), s.block.halted = false →
    (s.block.lockOwner ≠ some s.issuer → exec (.fbRead off) s = .next (s.raised .notOwner)) ∧
    (s.block.lockOwner = some s.issuer → s.block.mode ≠ .gfx640 →
      exec (.fbRead off) s = .next (s.raised .notInMode)) ∧
    (s.block.lockOwner = some s.issuer → s.block.mode = .gfx640 → 76800 ≤ off.toNat →
      exec (.fbRead off) s = .next (s.raised .fbRange)) ∧
    (s.block.lockOwner = some s.issuer → s.block.mode = .gfx640 → off.toNat < 76800 →
      s.block.readPlane = .unset → exec (.fbRead off) s = .next (s.raised .regUnset)) ∧
    (∀ p, s.block.lockOwner = some s.issuer → s.block.mode = .gfx640 → off.toNat < 76800 →
      s.block.readPlane = .set p →
      ∃ v : Byte, exec (.fbRead off) s = .next ({ s with
          block := { s.block with log := s.block.log ++
            [Event.rd s.issuer p off.toNat (s.block.planeByte (planeIndex p) off.toNat)] }
          draws := { s.draws with reads := s.draws.reads + 1 } }.respond (.okByte v)) ∧
        ∀ i : Fin 8, (∀ b, (s.block.planeByte (planeIndex p) off.toNat)[i] = .known b → v[i] = b) ∧
          ((s.block.planeByte (planeIndex p) off.toNat)[i] = .unknown →
            v[i] = (Config.readDraw s.draws.reads)[i]))

/-- `41_register_layer.md` R105, `20_memory.md` R48: FB_WRITE's faults in order, and its effect: byte
off of each plane whose PLANE_MASK bit is set becomes the data byte, or 0x00 where its WRITE_ENABLE
bit is set as well; every other byte of every plane reads as before; the write is logged, and nothing
else changes. -/
def Obligations.FbWriteStoresThroughTheMasks : Prop :=
  ReservedBitsRefused 0x9#4 0x0E000000#32 ∧
  (∀ off data, encodeWord (.fbWrite off data) = 0x9#4 ++ 0#3 ++ off ++ data) ∧
  ∀ (off : BitVec 17) (data : Byte) (s : State), s.block.halted = false →
    (s.block.lockOwner ≠ some s.issuer → exec (.fbWrite off data) s = .next (s.raised .notOwner)) ∧
    (s.block.lockOwner = some s.issuer → s.block.mode ≠ .gfx640 →
      exec (.fbWrite off data) s = .next (s.raised .notInMode)) ∧
    (s.block.lockOwner = some s.issuer → s.block.mode = .gfx640 → 76800 ≤ off.toNat →
      exec (.fbWrite off data) s = .next (s.raised .fbRange)) ∧
    (s.block.lockOwner = some s.issuer → s.block.mode = .gfx640 → off.toNat < 76800 →
      (s.block.planeMask = .unset ∨ s.block.writeEnable = .unset) →
      exec (.fbWrite off data) s = .next (s.raised .regUnset)) ∧
    (∀ pm we, s.block.lockOwner = some s.issuer → s.block.mode = .gfx640 → off.toNat < 76800 →
      s.block.planeMask = .set pm → s.block.writeEnable = .set we →
      ∃ planes, exec (.fbWrite off data) s = .next ({ s with block := { s.block with
          planes := planes
          log := s.block.log ++
            [Event.wr s.issuer off.toNat (TByte.ofByte data) pm we] } }.respond .ok) ∧
        ∀ (p : Fin 4) (a : Nat), planes[p].read a =
          if a = off.toNat ∧ pm[p] = true then
            if we[p] = true then TByte.ofByte 0x00#8 else TByte.ofByte data
          else s.block.planeByte p a)

/-- `41_register_layer.md` R104, R105, `20_memory.md` R47, R48: after a completed FB_WRITE and a
SET_READ_PLANE of plane p, an FB_READ of the same offset responds with the byte written if plane p was
selected and not forced, with 0x00 if it was selected and forced, whatever is drawn. -/
def Obligations.FbReadAfterFbWriteGivesTheByte : Prop :=
  ∀ (off : BitVec 17) (data : Byte) (p : BitVec 2) (pm we : BitVec 4) (s : State),
    s.block.halted = false → s.block.lockOwner = some s.issuer → s.block.mode = .gfx640 →
    off.toNat < 76800 → s.block.planeMask = .set pm → s.block.writeEnable = .set we →
    pm[p.toNat]'p.isLt = true →
    ∃ t u v, exec (.fbWrite off data) s = .next t ∧ exec (.setReadPlane p) t = .next u ∧
      exec (.fbRead off) u = .next v ∧
      (v.caller s.issuer).responses = (s.caller s.issuer).responses ++
        [.ok, .ok, .okByte (if we[p.toNat]'p.isLt = true then 0x00#8 else data)]

/-! ## The lock -/

/-- `42_device_lock.md` R116: LOCK takes a free lock for its caller and logs Acquire, in either mode;
it raises LOCK_HELD if its caller holds the lock, and holds if another does. -/
def Obligations.LockTakesTheFreeLock : Prop :=
  ReservedBitsRefused 0xD#4 0x0FFFFFFF#32 ∧
  ∀ s : State, encodeWord .lock = 0xD0000000#32 ∧ (s.block.halted = false →
    (s.block.lockOwner = some s.issuer → exec .lock s = .next (s.raised .lockHeld)) ∧
    (∀ c, s.block.lockOwner = some c → c ≠ s.issuer → exec .lock s = .next s) ∧
    (s.block.lockOwner = none → exec .lock s = .next ({ s with block := { s.block with
      lockOwner := some s.issuer, log := s.block.log ++ [Event.acquire s.issuer] } }.respond .ok)))

/-- `42_device_lock.md` R118: UNLOCK frees the lock its caller holds and logs Release; the registers,
planes and LUT are unchanged; it raises NOT_OWNER if its caller does not hold the lock. -/
def Obligations.UnlockFreesTheLock : Prop :=
  ReservedBitsRefused 0xE#4 0x0FFFFFFF#32 ∧
  ∀ s : State, encodeWord .unlock = 0xE0000000#32 ∧ (s.block.halted = false →
    (s.block.lockOwner ≠ some s.issuer → exec .unlock s = .next (s.raised .notOwner)) ∧
    (s.block.lockOwner = some s.issuer → exec .unlock s = .next ({ s with block := { s.block with
      lockOwner := none, log := s.block.log ++ [Event.release s.issuer] } }.respond .ok)))

/-! ## planar_framebuffer_writer -/

/-- `43_planar_writer.md` R125, R126, R129: offset(x, y) = x / 8 + 80 y and bit(x) = 7 − x mod 8 map
the pixels one to one onto offsets 0 .. 38399 and bits 0 .. 7. -/
def Obligations.PixelAddressesAreABijection : Prop :=
  (∀ x y, pixelOffset x y = x / 8 + 80 * y ∧ pixelBit x = 7 - x % 8) ∧
  (pixelOffset 0 0 = 0 ∧ pixelBit 0 = 7 ∧ pixelOffset 639 479 = 38399 ∧ pixelBit 639 = 0) ∧
  (∀ x y, x < 640 → y < 480 → pixelOffset x y < 38400 ∧ pixelBit x < 8) ∧
  (∀ x y x' y', x < 640 → y < 480 → x' < 640 → y' < 480 →
    pixelOffset x y = pixelOffset x' y' → pixelBit x = pixelBit x' → x = x' ∧ y = y') ∧
  (∀ off b, off < 38400 → b < 8 →
    ∃ x y, x < 640 ∧ y < 480 ∧ pixelOffset x y = off ∧ pixelBit x = b)

/-- `43_planar_writer.md` R130, R131: SET_MODE on a free lock, in either mode, enters GFX640, makes
the three selectors UNSET and every plane bit `?`, loads DEFAULT_PALETTE whatever the mode switch drew
for the LUT, logs Acquire, Mode, Pal, Release, and leaves the lock free and the fault record as it
was; the owner's own SET_MODE raises LOCK_HELD and another caller's holds. The counter of mode
switches, which numbers the draws, is the model's own (log 4). -/
def Obligations.SetModeEntersGraphicsMode : Prop :=
  ReservedBitsRefused 0x1#4 0x0FFFFFFF#32 ∧
  ∀ s : State, encodeWord .setMode = 0x10000000#32 ∧ (s.block.halted = false →
    (s.block.lockOwner = some s.issuer → exec .setMode s = .next (s.raised .lockHeld)) ∧
    (∀ c, s.block.lockOwner = some c → c ≠ s.issuer → exec .setMode s = .next s) ∧
    (s.block.lockOwner = none →
      ∃ planes lut, exec .setMode s = .next ({ s with
          block := { s.block with
            mode := .gfx640, planeMask := .unset, writeEnable := .unset, readPlane := .unset
            planes := planes, lut := lut
            log := s.block.log ++ [Event.acquire s.issuer, Event.mode s.issuer, Event.pal s.issuer,
              Event.release s.issuer] }
          draws := { s.draws with modeSwitches := s.draws.modeSwitches + 1 } }.respond .ok) ∧
        (∀ (p : Fin 4) (a : Nat) (i : Fin 8), (planes[p].read a)[i] = .unknown) ∧
        ∀ i : Fin 256, lut[i] =
          ⟨.set (Config.defaultPaletteChannel (3 * i.val)),
            .set (Config.defaultPaletteChannel (3 * i.val + 1)),
            .set (Config.defaultPaletteChannel (3 * i.val + 2))⟩))

/-- `43_planar_writer.md` R132, R137: SET_PIXEL's faults in order, and its whole effect: WRITE_ENABLE
first, then four rounds in plane order, each logging the read-plane write, the plane-mask write, the
read of the byte found and the write of that byte with the pixel's bit set or cleared; the byte of
each plane at the pixel's offset becomes what its round wrote, every other byte reads as before, and
READ_PLANE, PLANE_MASK and the lock end as the last round and the release leave them. -/
def Obligations.SetPixelRunsFourRounds : Prop :=
  ReservedBitsRefused 0x3#4 0x000001F0#32 ∧
  (∀ x y color, encodeWord (.setPixel x y color) = 0x3#4 ++ x ++ y ++ 0#5 ++ color) ∧
  ∀ (x : BitVec 10) (y : BitVec 9) (color : BitVec 4) (s : State),
    s.block.halted = false →
    (s.block.lockOwner = some s.issuer →
      exec (.setPixel x y color) s = .next (s.raised .lockHeld)) ∧
    (∀ c, s.block.lockOwner = some c → c ≠ s.issuer → exec (.setPixel x y color) s = .next s) ∧
    (s.block.lockOwner = none → s.block.mode ≠ .gfx640 →
      exec (.setPixel x y color) s = .next (s.raised .notInMode)) ∧
    (s.block.lockOwner = none → s.block.mode = .gfx640 → (640 ≤ x.toNat ∨ 480 ≤ y.toNat) →
      exec (.setPixel x y color) s = .next (s.raised .coordRange)) ∧
    (s.block.lockOwner = none → s.block.mode = .gfx640 → x.toNat < 640 → y.toNat < 480 →
      let off := x.toNat / 8 + 80 * y.toNat
      let m := 0x80#8 >>> (x.toNat % 8)
      let found (p : BitVec 2) := s.block.planeByte (planeIndex p) off
      let written (p : BitVec 2) :=
        if color.getLsbD p.toNat then TByte.setBits (found p) m else TByte.clearBits (found p) m
      ∃ planes, exec (.setPixel x y color) s = .next ({ s with block := { s.block with
          writeEnable := .set 0b0000#4, readPlane := .set 3#2, planeMask := .set 0b1000#4
          planes := planes
          log := s.block.log ++
            [Event.acquire s.issuer, Event.regWrite s.issuer (.writeEnable 0b0000#4)] ++
            [0#2, 1#2, 2#2, 3#2].flatMap (fun p =>
              [Event.regWrite s.issuer (.readPlane p),
                Event.regWrite s.issuer (.planeMask (1#4 <<< p.toNat)),
                Event.rd s.issuer p off (found p),
                Event.wr s.issuer off (written p) (1#4 <<< p.toNat) 0b0000#4]) ++
            [Event.release s.issuer] } }.respond .ok) ∧
        ∀ (p : BitVec 2) (a : Nat), planes[planeIndex p].read a =
          if a = off then written p else s.block.planeByte (planeIndex p) a)

/-- `43_planar_writer.md` R133: a completed SET_PIXEL makes bit bit(x) of byte offset(x, y) of each
plane p the known bit p of the colour, and changes no other bit of any plane, known or `?`; the pixel
code of (x, y) is the colour; WRITE_ENABLE = 0, READ_PLANE = 3, PLANE_MASK = 0b1000, the lock is free,
MODE and LUT are unchanged. -/
def Obligations.SetPixelSetsExactlyItsPixel : Prop :=
  ∀ (x : BitVec 10) (y : BitVec 9) (color : BitVec 4) (s : State), s.block.halted = false →
    s.block.lockOwner = none → s.block.mode = .gfx640 → x.toNat < 640 → y.toNat < 480 →
    ∃ t, exec (.setPixel x y color) s = .next t ∧
      (∀ (p : Fin 4) (a : Nat) (i : Fin 8), (t.block.planeByte p a)[i] =
        if a = pixelOffset x.toNat y.toNat ∧ i.val = pixelBit x.toNat then .known color[p]
        else (s.block.planeByte p a)[i]) ∧
      t.block.pixelCode x.toNat y.toNat = knownCode color ∧
      t.block.writeEnable = .set 0b0000#4 ∧ t.block.readPlane = .set 3#2 ∧
      t.block.planeMask = .set 0b1000#4 ∧ t.block.lockOwner = none ∧
      t.block.mode = s.block.mode ∧ t.block.lut = s.block.lut

/-- `43_planar_writer.md` R133: two SET_PIXELs on different pixels leave the same planes in either
order, bit for bit, even when the pixels share a byte. -/
def Obligations.SetPixelsOnDifferentPixelsCommute : Prop :=
  ∀ (x x' : BitVec 10) (y y' : BitVec 9) (color color' : BitVec 4) (s : State),
    s.block.halted = false → s.block.lockOwner = none → s.block.mode = .gfx640 →
    x.toNat < 640 → y.toNat < 480 → x'.toNat < 640 → y'.toNat < 480 → (x ≠ x' ∨ y ≠ y') →
    ∃ t tu u ut, exec (.setPixel x y color) s = .next t ∧
      exec (.setPixel x' y' color') t = .next tu ∧
      exec (.setPixel x' y' color') s = .next u ∧ exec (.setPixel x y color) u = .next ut ∧
      ∀ (p : Fin 4) (a : Nat), tu.block.planeByte p a = ut.block.planeByte p a

/-- `43_planar_writer.md` R134, R135: CLEAR_SCREEN's faults in order, and its effect: every bit of
every plane at offsets 0 .. 76799 becomes known 0, in one Wr event per offset in rising order after
the two register writes, under the lock; PLANE_MASK = 0b1111, WRITE_ENABLE = 0, and READ_PLANE, MODE
and LUT are unchanged. Bytes at keys outside the window, which no state of a run lists, are
unchanged. -/
def Obligations.ClearScreenClearsTheWindow : Prop :=
  ReservedBitsRefused 0x2#4 0x0FFFFFFF#32 ∧
  ∀ s : State, encodeWord .clearScreen = 0x20000000#32 ∧ (s.block.halted = false →
    (s.block.lockOwner = some s.issuer → exec .clearScreen s = .next (s.raised .lockHeld)) ∧
    (∀ c, s.block.lockOwner = some c → c ≠ s.issuer → exec .clearScreen s = .next s) ∧
    (s.block.lockOwner = none → s.block.mode ≠ .gfx640 →
      exec .clearScreen s = .next (s.raised .notInMode)) ∧
    (s.block.lockOwner = none → s.block.mode = .gfx640 →
      ∃ planes, exec .clearScreen s = .next ({ s with block := { s.block with
          planeMask := .set 0b1111#4, writeEnable := .set 0b0000#4
          planes := planes
          log := s.block.log ++
            [Event.acquire s.issuer, Event.regWrite s.issuer (.planeMask 0b1111#4),
              Event.regWrite s.issuer (.writeEnable 0b0000#4)] ++
            (List.range 76800).map (fun off =>
              Event.wr s.issuer off (TByte.ofByte 0x00#8) 0b1111#4 0b0000#4) ++
            [Event.release s.issuer] } }.respond .ok) ∧
        ∀ (p : Fin 4) (a : Nat), planes[p].read a =
          if a < 76800 then TByte.ofByte 0x00#8 else s.block.planeByte p a))

/-- `43_planar_writer.md` R134 (§8 of the source): a second CLEAR_SCREEN leaves the same planes and
registers as one. -/
def Obligations.ClearScreenIsIdempotent : Prop :=
  ∀ s : State, s.block.halted = false → s.block.lockOwner = none → s.block.mode = .gfx640 →
    s.Inv → ∃ t u, exec .clearScreen s = .next t ∧ exec .clearScreen t = .next u ∧
      u.block = { t.block with log := u.block.log }

/-- `10_state.md` R35: the displayed colour of a pixel whose code is all known is the LUT entry that
PIXEL_LUT_INDEX names for the code, if its channels are set. So a completed SET_PIXEL displays the
entry of its colour. With a `?` in the code or an UNSET channel the spec calls the displayed colour
undefined; that the observation then gives no colour is the model's choice (log 17). -/
def Obligations.DisplayedColourIsTheLutEntry : Prop :=
  (∀ (b : Block) (x y : Nat) (code : BitVec 4), b.pixelCode x y = knownCode code →
    (∀ r g bl, b.lut[(Config.pixelLutIndex code).toFin] = ⟨.set r, .set g, .set bl⟩ →
      b.displayedColour x y = some (r, g, bl)) ∧
    (¬ b.lut[(Config.pixelLutIndex code).toFin].AllSet → b.displayedColour x y = none)) ∧
  (∀ (b : Block) (x y : Nat) (p : Fin 4), b.pixelCodeBit x y p = .unknown →
    b.displayedColour x y = none) ∧
  (∀ (x : BitVec 10) (y : BitVec 9) (color : BitVec 4) (s : State), s.block.halted = false →
    s.block.lockOwner = none → s.block.mode = .gfx640 → x.toNat < 640 → y.toNat < 480 →
    ∀ r g bl, s.block.lut[(Config.pixelLutIndex color).toFin] = ⟨.set r, .set g, .set bl⟩ →
      ∃ t, exec (.setPixel x y color) s = .next t ∧
        t.block.displayedColour x.toNat y.toNat = some (r, g, bl))

/-! ## Whole-machine rules -/

/-- `43_planar_writer.md` R136, `10_state.md` R24: only SET_MODE changes MODE, and only to GFX640; a
step leaves GFX640 only by reset. -/
def Obligations.OnlySetModeEntersAndOnlyResetLeaves : Prop :=
  (∀ (i : Instr) (s t : State), exec i s = .next t → t.block.mode ≠ s.block.mode →
    i = .setMode ∧ s.block.mode = .other ∧ t.block.mode = .gfx640) ∧
  (∀ s t : State, step s = .next t → s.block.mode = .gfx640 → t.block.mode = .other →
    s.resetInput = true)

/-- `10_state.md` R23, R32: each register, the LUT and the planes change only under the commands listed
as writing them: MODE under SET_MODE; the selector registers, the LUT, the lock owner and the planes
under their commands; FAULT, FAULT_CALLER and FAULT_WORD, and the halt with them, only where the
command raises a fault. -/
def Obligations.StateChangesOnlyUnderItsWriters : Prop :=
  ∀ (i : Instr) (s t : State), exec i s = .next t →
    (t.block.mode ≠ s.block.mode → i = .setMode) ∧
    ((t.block.fault ≠ s.block.fault ∨ t.block.faultCaller ≠ s.block.faultCaller ∨
        t.block.faultWord ≠ s.block.faultWord ∨ t.block.halted ≠ s.block.halted) →
      ∃ f, t = s.raised f) ∧
    (t.block.planeMask ≠ s.block.planeMask →
      (∃ m, i = .setPlaneMask m) ∨ (∃ x y c, i = .setPixel x y c) ∨ i = .clearScreen ∨
        i = .setMode) ∧
    (t.block.writeEnable ≠ s.block.writeEnable →
      (∃ m, i = .setWriteEnable m) ∨ (∃ x y c, i = .setPixel x y c) ∨ i = .clearScreen ∨
        i = .setMode) ∧
    (t.block.readPlane ≠ s.block.readPlane →
      (∃ p, i = .setReadPlane p) ∨ (∃ x y c, i = .setPixel x y c) ∨ i = .setMode) ∧
    (t.block.lut ≠ s.block.lut → (∃ p, i = .loadPalette p) ∨ i = .setMode) ∧
    (t.block.lockOwner ≠ s.block.lockOwner → i = .lock ∨ i = .unlock) ∧
    ((∃ p a, t.block.planeByte p a ≠ s.block.planeByte p a) →
      (∃ off v, i = .fbWrite off v) ∨ (∃ x y c, i = .setPixel x y c) ∨ i = .clearScreen ∨
        i = .setMode)

/-- The frame of the commands that store to no plane: every byte of every plane reads as before
(`40_color_model.md` R88 to R91, `41_register_layer.md` R101 to R104, `42_device_lock.md` R116,
R118). -/
def Obligations.NonStoringCommandsKeepEveryByte : Prop :=
  ∀ (i : Instr) (s t : State), exec i s = .next t →
    ((∃ fg bg, i = .attrNew fg bg) ∨ (∃ a c, i = .attrSetFg a c) ∨ (∃ a c, i = .attrSetBg a c) ∨
      (∃ p, i = .loadPalette p) ∨ (∃ m, i = .setPlaneMask m) ∨ (∃ m, i = .setWriteEnable m) ∨
      (∃ p, i = .setReadPlane p) ∨ (∃ off, i = .fbRead off) ∨ i = .lock ∨ i = .unlock) →
    t.block.mode = s.block.mode ∧
    ∀ (p : Fin 4) (a : Nat), t.block.planeByte p a = s.block.planeByte p a

/-- `42_device_lock.md` R115: while one caller owns the lock, whatever command another caller issues
changes nothing of the block but, at most, its fault record. -/
def Obligations.LockShutsOtherCallersOut : Prop :=
  ∀ (i : Instr) (s t : State) (c : CallerId), s.block.lockOwner = some c → s.issuer ≠ c →
    exec i s = .next t →
    t.block = { s.block with fault := t.block.fault, faultCaller := t.block.faultCaller,
                             faultWord := t.block.faultWord, halted := t.block.halted }

/-- `10_state.md` R30: no command reads the event log: with a longer past in the log, a command does
the same and the log ends with the same events. -/
def Obligations.NoCommandReadsTheLog : Prop :=
  ∀ (i : Instr) (s t : State) (past : List Event), exec i s = .next t →
    exec i { s with block := { s.block with log := past ++ s.block.log } } =
      .next { t with block := { t.block with log := past ++ t.block.log } }

/-- `10_state.md` R30, `70_reset_and_hazards.md` R165: only reset empties the log: every other step
only appends to it. -/
def Obligations.LogOnlyGrows : Prop :=
  ∀ s t : State, s.resetInput = false → step s = .next t → s.block.log <+: t.block.log

/-- `10_state.md` R21, `60_exceptions.md` R161: in a step other than reset a caller's command index
moves only by exactly 1, with one response, and its command is no longer outstanding then; no caller's
sequence changes, and no response is taken back. That a step lets at most one caller issue, or moves at
most one caller's index, and that issuing is a step of its own, is the model's and no rule's: issuing is
log 1 (DESIGN CHOICE), one turn to a step is log 18 (DEDUCED). -/
def Obligations.StepAdvancesAtMostOneCaller : Prop :=
  ∀ s t : State, s.resetInput = false → step s = .next t →
    t.callers = s.callers ∨
    (∃ c, (CallersInv s.callers → (s.caller c).issued = false) ∧
      t.caller c = { s.caller c with issued := true } ∧ ∀ d, d ≠ c → t.caller d = s.caller d) ∨
    ∃ c r, (CallersInv s.callers → (s.caller c).issued = true) ∧
      t.caller c = { sequence := (s.caller c).sequence, index := (s.caller c).index + 1
                     issued := false, responses := (s.caller c).responses ++ [r] } ∧
      ∀ d, d ≠ c → t.caller d = s.caller d

/-! ## Invariants -/

/-- The invariant holds at reset. -/
def Obligations.ResetMeetsTheInvariant : Prop :=
  State.reset.Inv ∧ State.reset.block.HistoryInv

/-- The invariant is kept by every step from every state that meets it: planes in canonical form,
nothing known in OTHER mode, no UNSET LUT channel in GFX640, the fault record whole and its code
never reserved (`60_exceptions.md` R146), halted exactly with a fault (R151), every caller's responses
counted by its index (R161), and a command there wherever a caller has issued one (`10_state.md`
R21). -/
def Obligations.StepKeepsTheInvariant : Prop :=
  ∀ s t : State, s.Inv → step s = .next t → t.Inv

/-- `10_state.md` R30, `20_memory.md` R57: every step keeps the event log a legal history, in which each
event is one its caller may make where it stands, as the lock's owner, and whose replay from reset gives
the block's mode, selector registers, lock owner and every plane. (The very events a command appends are
in the statement of that command.) -/
def Obligations.StepKeepsTheLogALegalHistory : Prop :=
  ∀ s t : State, s.block.HistoryInv → step s = .next t → t.block.HistoryInv

/-- `20_memory.md` R57, §8 of the source: in a legal history, between a caller's Acquire and its
Release no event belongs to another caller. -/
def Obligations.NoForeignEventWhileLocked : Prop :=
  ∀ (b : Block) (before inside rest : List Event) (c : CallerId), b.HistoryInv →
    b.log = before ++ [Event.acquire c] ++ inside ++ rest → Event.release c ∉ inside →
    ∀ e ∈ inside, e.caller = c

/-! ## Issuing -/

/-- `10_state.md` R21: a caller that issues its next command has none outstanding before and exactly
that one after; the step changes neither the block nor another caller, and no index and no response.
That a caller issues in a step of its own, at a time the turn's free number picks, is the model's
choice (log 1, 3). -/
def Obligations.IssuingMakesTheNextCommandOutstanding : Prop :=
  ∀ (s : State) (c : CallerId), CallersInv s.callers → s.resetInput = false →
    s.turn = some (.issue c) →
    ∃ t cmd, step s = .next t ∧ t.block = s.block ∧ t.port = s.port ∧
      (s.caller c).outstanding = none ∧ (s.caller c).sequence[(s.caller c).index]? = some cmd ∧
      (t.caller c).outstanding = some cmd ∧ t.caller c = { s.caller c with issued := true } ∧
      (∀ d, d ≠ c → t.caller d = s.caller d) ∧
      ∀ u : Transaction, u ∈ t.outstanding ↔ u ∈ s.outstanding ∨ u = ⟨c, cmd⟩
end

