-- ==== Sys2Proof/Laws/Decode.lean ====
section
/-! SUPPORT. The encoding as arithmetic: a field and a command word as numbers, the reserved bits of a
format as a zero field, and what a word that decodes, or that a table row matches, looks like. -/

namespace Sys2Proof

theorem append_toNat {n m : Nat} (a : BitVec n) (b : BitVec m) :
    (a ++ b).toNat = a.toNat * 2 ^ m + b.toNat := by
  rw [BitVec.toNat_append, ← Nat.shiftLeft_add_eq_or_of_lt b.isLt, Nat.shiftLeft_eq]

theorem field_toNat (w : Word) (hi lo : Nat) :
    (field w hi lo).toNat = w.toNat / 2 ^ lo % 2 ^ (hi - lo + 1) := by
  simp [field, Nat.shiftRight_eq_div_pow]

/-! ## Reserved bits -/

/-- A word has no bit under a run of ones exactly when the field of that run is zero. -/
theorem and_run_eq_zero (w : Word) (lo len : Nat) (h : lo + len ≤ 32) :
    w &&& ((BitVec.allOnes len).setWidth 32 <<< lo) = 0#32 ↔ w.toNat / 2 ^ lo % 2 ^ len = 0 := by
  have hf : w.toNat / 2 ^ lo % 2 ^ len = (w.extractLsb' lo len).toNat := by
    simp [Nat.shiftRight_eq_div_pow]
  rw [hf, show (0 : Nat) = (0#len).toNat by simp, ← BitVec.toNat_eq]
  constructor
  · intro hz
    apply BitVec.eq_of_getLsbD_eq
    intro i hi
    have hb := congrArg (fun v : Word => v.getLsbD (lo + i)) hz
    simpa [hi, show lo + i < 32 by omega] using hb
  · intro hz
    apply BitVec.eq_of_getLsbD_eq
    intro i hi
    by_cases hl : lo ≤ i ∧ i < lo + len
    · have hb := congrArg (fun v : BitVec len => v.getLsbD (i - lo)) hz
      have hi' : lo + (i - lo) = i := by omega
      simp [hi'] at hb
      simp [hb (by omega)]
    · simp
      intro _ _
      omega

theorem reserved_none (w : Word) : w &&& 0x0FFFFFFF#32 = 0#32 ↔ w.toNat % 2 ^ 28 = 0 := by
  simpa using and_run_eq_zero w 0 28 (by decide)
theorem reserved_pix (w : Word) : w &&& 0x000001F0#32 = 0#32 ↔ w.toNat / 2 ^ 4 % 2 ^ 5 = 0 :=
  and_run_eq_zero w 4 5 (by decide)
theorem reserved_mask (w : Word) : w &&& 0x0FFFFFF0#32 = 0#32 ↔ w.toNat / 2 ^ 4 % 2 ^ 24 = 0 :=
  and_run_eq_zero w 4 24 (by decide)
theorem reserved_plane (w : Word) : w &&& 0x0FFFFFFC#32 = 0#32 ↔ w.toNat / 2 ^ 2 % 2 ^ 26 = 0 :=
  and_run_eq_zero w 2 26 (by decide)
theorem reserved_rd (w : Word) : w &&& 0x0FFE0000#32 = 0#32 ↔ w.toNat / 2 ^ 17 % 2 ^ 11 = 0 :=
  and_run_eq_zero w 17 11 (by decide)
theorem reserved_wr (w : Word) : w &&& 0x0E000000#32 = 0#32 ↔ w.toNat / 2 ^ 25 % 2 ^ 3 = 0 :=
  and_run_eq_zero w 25 3 (by decide)
theorem reserved_attr (w : Word) : w &&& 0x0FFFFF00#32 = 0#32 ↔ w.toNat / 2 ^ 8 % 2 ^ 20 = 0 :=
  and_run_eq_zero w 8 20 (by decide)
theorem reserved_nib (w : Word) : w &&& 0x0FFF00F0#32 = 0#32 ↔
    w.toNat / 2 ^ 16 % 2 ^ 12 = 0 ∧ w.toNat / 2 ^ 4 % 2 ^ 4 = 0 := by
  rw [← and_run_eq_zero w 16 12 (by decide), ← and_run_eq_zero w 4 4 (by decide)]
  constructor
  · intro h
    constructor
    · have hb := congrArg (· &&& 0x0FFF0000#32) h
      simpa [BitVec.and_assoc] using hb
    · have hb := congrArg (· &&& 0x000000F0#32) h
      simpa [BitVec.and_assoc] using hb
  · rintro ⟨h1, h2⟩
    have hm : (0x0FFF00F0#32 : Word) =
        (BitVec.allOnes 12).setWidth 32 <<< 16 ||| (BitVec.allOnes 4).setWidth 32 <<< 4 := by decide
    rw [hm, BitVec.and_or_distrib_left, h1, h2]
    rfl

/-! ## The decoder -/

/-- When a transaction decodes, and to what (`30_encoding.md` R79). -/
theorem decode_eq_ok_iff {w : Word} {p : List Byte} {i : Instr} : decode w p = .ok i ↔
    ∃ op, opcodeOf (field w 31 28) = some op ∧ w &&& op.reserved = 0#32 ∧
      p.length = op.payloadLength ∧ i = op.assemble w p := by
  unfold decode
  rcases opcodeOf (field w 31 28) with _ | op
  · simp
  · by_cases h1 : w &&& op.reserved = 0#32 <;> by_cases h2 : p.length = op.payloadLength <;>
      simp [h1, h2]
    exact eq_comm

/-- A word matches a row's mask exactly when it has the row's opcode and no reserved bit. -/
theorem row_match {row : Row} (hr : row ∈ opcodeTable) (w : Word) : w &&& row.mask = row.pattern ↔
    opcodeOf (field w 31 28) = some row.opcode ∧ w &&& row.opcode.reserved = 0#32 := by
  have table : ∀ row ∈ opcodeTable, row.mask = 0xF0000000#32 ||| row.opcode.reserved ∧
      row.mask &&& row.opcode.reserved = row.opcode.reserved ∧
      row.pattern &&& row.opcode.reserved = 0#32 ∧ row.mask &&& 0xF0000000#32 = 0xF0000000#32 ∧
      row.pattern &&& 0xF0000000#32 = row.pattern ∧
      opcodeOf (field row.pattern 31 28) = some row.opcode ∧
      ∀ v : BitVec 4, opcodeOf v = some row.opcode → v ++ 0#28 = row.pattern := by decide
  obtain ⟨m1, m2, m3, m4, m5, m6, m7⟩ := table row hr
  have high : w &&& 0xF0000000#32 = (field w 31 28 ++ 0#28 : BitVec 32) := by
    have hw : w = (field w 31 28 ++ field w 27 0 : BitVec 32) := by
      apply BitVec.eq_of_toNat_eq
      have := w.isLt
      erw [append_toNat, field_toNat, field_toNat]
      simp
      omega
    have hm : (0xF0000000#32 : BitVec 32) = (BitVec.allOnes 4 ++ 0#28 : BitVec 32) := by decide
    conv_lhs => rw [hw]
    rw [hm]
    erw [BitVec.and_append]
    rw [BitVec.and_allOnes]
    simp
  constructor
  · intro h
    constructor
    · rw [← m6, ← h]
      congr 1
      apply BitVec.eq_of_toNat_eq
      have hb := congrArg (· &&& 0xF0000000#32) h
      simp only [BitVec.and_assoc, m4, m5] at hb
      rw [h, ← hb, high, field_toNat, field_toNat]
      erw [append_toNat, field_toNat]
      simp
    · have hb := congrArg (· &&& row.opcode.reserved) h
      simpa only [BitVec.and_assoc, m2, m3] using hb
  · rintro ⟨h1, h2⟩
    rw [m1, BitVec.and_or_distrib_left, h2, high, m7 _ h1]
    simp

/-! ## The encoder -/

/-- The opcode of an instruction. -/
def Instr.opcode : Instr → Opcode
  | .setMode => .setMode
  | .clearScreen => .clearScreen
  | .setPixel _ _ _ => .setPixel
  | .setPlaneMask _ => .setPlaneMask
  | .setWriteEnable _ => .setWriteEnable
  | .setReadPlane _ => .setReadPlane
  | .loadPalette _ => .loadPalette
  | .fbRead _ => .fbRead
  | .fbWrite _ _ => .fbWrite
  | .attrNew _ _ => .attrNew
  | .attrSetFg _ _ => .attrSetFg
  | .attrSetBg _ _ => .attrSetBg
  | .lock => .lock
  | .unlock => .unlock

/-- The number in bits 31:28 of an opcode's words. -/
def Opcode.number : Opcode → Nat
  | .setMode => 1 | .clearScreen => 2 | .setPixel => 3 | .setPlaneMask => 4
  | .setWriteEnable => 5 | .setReadPlane => 6 | .loadPalette => 7 | .fbRead => 8
  | .fbWrite => 9 | .attrNew => 10 | .attrSetFg => 11 | .attrSetBg => 12
  | .lock => 13 | .unlock => 14

/-- Bits 27:0 of an instruction's word, as a number. -/
def Instr.operandsNumber : Instr → Nat
  | .setMode | .clearScreen | .loadPalette _ | .lock | .unlock => 0
  | .setPixel x y c => x.toNat * 2 ^ 18 + y.toNat * 2 ^ 9 + c.toNat
  | .setPlaneMask m | .setWriteEnable m => m.toNat
  | .setReadPlane p => p.toNat
  | .fbRead off => off.toNat
  | .fbWrite off d => off.toNat * 2 ^ 8 + d.toNat
  | .attrNew fg bg => bg.toNat * 2 ^ 4 + fg.toNat
  | .attrSetFg a c | .attrSetBg a c => a.toNat * 2 ^ 8 + c.toNat

theorem encodeWord_toNat (i : Instr) :
    (encodeWord i).toNat = i.opcode.number * 2 ^ 28 + i.operandsNumber := by
  cases i with
  | setMode | clearScreen | lock | unlock => rfl
  | loadPalette p => show (0x70000000#32).toNat = 7 * 2 ^ 28 + 0; decide
  | setPixel x y c =>
    simp only [Instr.opcode, Opcode.number, Instr.operandsNumber]; unfold encodeWord
    erw [append_toNat, append_toNat, append_toNat, append_toNat]; simp; omega
  | setPlaneMask m | setWriteEnable m | setReadPlane m | fbRead m =>
    simp only [Instr.opcode, Opcode.number, Instr.operandsNumber]; unfold encodeWord
    erw [append_toNat, append_toNat]; simp
  | fbWrite a b | attrNew a b =>
    simp only [Instr.opcode, Opcode.number, Instr.operandsNumber]; unfold encodeWord
    erw [append_toNat, append_toNat, append_toNat]; simp; omega
  | attrSetFg a b | attrSetBg a b =>
    simp only [Instr.opcode, Opcode.number, Instr.operandsNumber]; unfold encodeWord
    erw [append_toNat, append_toNat, append_toNat, append_toNat]; simp; omega

theorem operandsNumber_lt (i : Instr) : i.operandsNumber < 2 ^ 28 := by
  cases i <;> simp [Instr.operandsNumber] <;> omega

end Sys2Proof
end

