-- ==== Sys2Proof/Laws/Memory.lean ====
section
/-! SUPPORT. What a sparse map and a plane read as after a store, and that every store keeps the
canonical form. -/

namespace Sys2Proof.Machine

variable {α : Type} {d : α} {m : List (Nat × α)} {a b : Nat} {v : α}

@[simp] theorem lookup_nil : lookup d [] a = d := rfl

theorem lookup_insertAt : lookup d (insertAt a v m) b = if b = a then v else lookup d m b := by
  induction m with
  | nil => simp [insertAt, lookup]
  | cons e m ih =>
    obtain ⟨k, w⟩ := e
    by_cases h1 : a < k
    · simp [insertAt, h1, lookup]
    · by_cases h2 : a = k
      · subst h2
        by_cases hb : b = a <;> simp [insertAt, lookup, hb]
      · by_cases hb : b = k
        · have : b ≠ a := fun h => h2 (h ▸ hb)
          simp [insertAt, h1, h2, lookup, hb, Ne.symm h2]
        · simp [insertAt, h1, h2, lookup, hb, ih]

theorem lookup_eraseAt : lookup d (eraseAt a m) b = if b = a then d else lookup d m b := by
  induction m with
  | nil => simp [eraseAt]
  | cons e m ih =>
    obtain ⟨k, w⟩ := e
    by_cases h : a = k
    · subst h
      by_cases hb : b = a <;> simp_all [eraseAt, lookup]
    · by_cases hb : b = k
      · have : b ≠ a := fun h' => h (h' ▸ hb)
        simp [eraseAt, h, lookup, hb, Ne.symm h]
      · simp [eraseAt, h, lookup, hb, ih]

/-- Read after store: the stored key gives the value, every other key what it gave. -/
theorem lookup_store [DecidableEq α] :
    lookup d (store d m a v) b = if b = a then v else lookup d m b := by
  unfold store
  split
  · next h => rw [lookup_eraseAt, h]
  · exact lookup_insertAt

@[simp] theorem lookup_store_same [DecidableEq α] : lookup d (store d m a v) a = v := by
  simp [lookup_store]

theorem lookup_store_of_ne [DecidableEq α] (h : b ≠ a) :
    lookup d (store d m a v) b = lookup d m b := by simp [lookup_store, h]

theorem mem_insertAt {e : Nat × α} (h : e ∈ insertAt a v m) : e = (a, v) ∨ e ∈ m := by
  induction m with
  | nil => simpa [insertAt] using h
  | cons f m ih =>
    unfold insertAt at h
    split at h
    · simpa using h
    · split at h
      · rcases List.mem_cons.mp h with h | h
        · exact .inl h
        · exact .inr (List.mem_cons_of_mem _ h)
      · rcases List.mem_cons.mp h with h | h
        · exact .inr (h ▸ List.mem_cons_self)
        · exact (ih h).imp id (List.mem_cons_of_mem _)

theorem mem_eraseAt {e : Nat × α} (h : e ∈ eraseAt a m) : e ∈ m ∧ e.1 ≠ a := by
  induction m with
  | nil => simp [eraseAt] at h
  | cons f m ih =>
    unfold eraseAt at h
    split at h
    · exact ⟨List.mem_cons_of_mem _ (ih h).1, (ih h).2⟩
    · next hne =>
      rcases List.mem_cons.mp h with h | h
      · exact ⟨h ▸ List.mem_cons_self, h ▸ Ne.symm hne⟩
      · exact ⟨List.mem_cons_of_mem _ (ih h).1, (ih h).2⟩

/-- An entry after a store is the stored one or was there before. -/
theorem mem_store [DecidableEq α] {e : Nat × α} (h : e ∈ store d m a v) :
    (e = (a, v) ∧ v ≠ d) ∨ e ∈ m := by
  unfold store at h
  split at h
  · exact .inr (mem_eraseAt h).1
  · next hv => exact (mem_insertAt h).imp (⟨·, hv⟩) id

theorem insertAt_sorted (h : m.Pairwise (fun e f => e.1 < f.1)) :
    (insertAt a v m).Pairwise (fun e f => e.1 < f.1) := by
  induction m with
  | nil => simp [insertAt]
  | cons f m ih =>
    obtain ⟨hf, hm⟩ := List.pairwise_cons.mp h
    unfold insertAt
    split
    · next hlt =>
      refine List.pairwise_cons.mpr ⟨fun e he => ?_, h⟩
      rcases List.mem_cons.mp he with rfl | he
      · exact hlt
      · exact lt_trans hlt (hf e he)
    · split
      · next heq => exact List.pairwise_cons.mpr ⟨fun e he => heq ▸ hf e he, hm⟩
      · refine List.pairwise_cons.mpr ⟨fun e he => ?_, ih hm⟩
        rcases mem_insertAt he with rfl | he
        · simp only; omega
        · exact hf e he

theorem eraseAt_sorted (h : m.Pairwise (fun e f => e.1 < f.1)) :
    (eraseAt a m).Pairwise (fun e f => e.1 < f.1) := by
  induction m with
  | nil => simp [eraseAt]
  | cons f m ih =>
    obtain ⟨hf, hm⟩ := List.pairwise_cons.mp h
    unfold eraseAt
    split
    · exact ih hm
    · exact List.pairwise_cons.mpr ⟨fun e he => hf e (mem_eraseAt he).1, ih hm⟩

/-- Every store keeps the canonical form. -/
theorem store_canonical [DecidableEq α] (h : Canonical d m) : Canonical d (store d m a v) := by
  refine ⟨?_, fun e he => ?_⟩
  · unfold store
    split
    · exact eraseAt_sorted h.1
    · exact insertAt_sorted h.1
  · rcases mem_store he with ⟨rfl, hv⟩ | he
    · exact hv
    · exact h.2 e he

/-- What a canonical map reads at a listed key. -/
theorem lookup_of_mem {e : Nat × α} (h : m.Pairwise (fun e f => e.1 < f.1)) (he : e ∈ m) :
    lookup d m e.1 = e.2 := by
  induction m with
  | nil => simp at he
  | cons f m ih =>
    obtain ⟨hf, hm⟩ := List.pairwise_cons.mp h
    rcases List.mem_cons.mp he with rfl | he
    · simp [lookup]
    · have : e.1 ≠ f.1 := (Nat.ne_of_lt (hf e he)).symm
      simp [lookup, this, ih hm he]

/-- A key below every listed key reads as the unlisted value. -/
theorem lookup_of_lt (h : ∀ e ∈ m, a < e.1) : lookup d m a = d := by
  induction m with
  | nil => rfl
  | cons f m ih =>
    have hf : a ≠ f.1 := Nat.ne_of_lt (h f List.mem_cons_self)
    simp [lookup, hf, ih fun e he => h e (List.mem_cons_of_mem _ he)]

/-- Equal reads make canonical maps equal lists. -/
theorem canonical_ext {n : List (Nat × α)} (hm : Canonical d m) (hn : Canonical d n)
    (h : ∀ a, lookup d m a = lookup d n a) : m = n := by
  induction m generalizing n with
  | nil =>
    cases n with
    | nil => rfl
    | cons f n =>
      have := h f.1
      simp [lookup] at this
      exact absurd this.symm (hn.2 f List.mem_cons_self)
  | cons e m ih =>
    cases n with
    | nil =>
      have := h e.1
      simp [lookup] at this
      exact absurd this (hm.2 e List.mem_cons_self)
    | cons f n =>
      obtain ⟨hem, hms⟩ := List.pairwise_cons.mp hm.1
      obtain ⟨hfn, hns⟩ := List.pairwise_cons.mp hn.1
      have hke : e.1 = f.1 := by
        rcases lt_trichotomy e.1 f.1 with hlt | heq | hgt
        · have := h e.1
          rw [lookup_of_lt (m := f :: n) (a := e.1)] at this
          · simp [lookup] at this
            exact absurd this (hm.2 e List.mem_cons_self)
          · intro g hg
            rcases List.mem_cons.mp hg with rfl | hg
            · exact hlt
            · exact lt_trans hlt (hfn g hg)
        · exact heq
        · have := h f.1
          rw [lookup_of_lt (m := e :: m) (a := f.1)] at this
          · simp [lookup] at this
            exact absurd this.symm (hn.2 f List.mem_cons_self)
          · intro g hg
            rcases List.mem_cons.mp hg with rfl | hg
            · exact hgt
            · exact lt_trans hgt (hem g hg)
      have hve : e.2 = f.2 := by
        have := h e.1
        simpa [lookup, hke] using this
      have hef : e = f := Prod.ext hke hve
      subst hef
      congr 1
      refine ih ⟨hms, fun g hg => hm.2 g (List.mem_cons_of_mem _ hg)⟩
        ⟨hns, fun g hg => hn.2 g (List.mem_cons_of_mem _ hg)⟩ fun a => ?_
      by_cases ha : a = e.1
      · rw [lookup_of_lt (fun g hg => ha ▸ hem g hg), lookup_of_lt (fun g hg => ha ▸ hfn g hg)]
      · simpa [lookup, ha] using h a

/-! ## Planes -/

@[simp] theorem Memory.read_nil (off : Nat) : Memory.read [] off = unknownByte := rfl

theorem Memory.read_write (m : Memory) (off : Nat) (v : TByte) (a : Nat) :
    (m.write off v).read a = if a = off then v else m.read a := lookup_store

/-- A write inside the window keeps a plane's canonical form. -/
theorem Memory.write_wf {m : Memory} (h : m.wf) {off : Nat} (ho : off < Config.windowBytes)
    (v : TByte) : (m.write off v).wf := by
  refine ⟨store_canonical h.1, fun e he => ?_⟩
  rcases mem_store he with ⟨rfl, -⟩ | he
  · exact ho
  · exact h.2 e he

theorem Memory.nil_wf : Memory.wf [] :=
  ⟨⟨.nil, fun _ h => absurd h List.not_mem_nil⟩, fun _ h => absurd h List.not_mem_nil⟩

/-- Planes in canonical form that read alike are equal. -/
theorem Memory.ext_read {m n : Memory} (hm : m.wf) (hn : n.wf) (h : ∀ a, m.read a = n.read a) :
    m = n := canonical_ext hm.1 hn.1 h

end Sys2Proof.Machine
end

