-- ==== Sys2Proof/Laws/Operands.lean ====
section
/-! SUPPORT. What the operand computations give, bit by bit, and the addressing transform's
arithmetic. -/

namespace Sys2Proof.Machine

/-! ## Tracked bytes -/

@[simp] theorem unknownByte_getElem (i : Nat) (h : i < 8) : unknownByte[i] = .unknown := by
  simp [unknownByte]

@[simp] theorem ofByte_getElem (v : Byte) (i : Nat) (h : i < 8) :
    (TByte.ofByte v)[i] = .known v[i] := by
  simp [TByte.ofByte]

@[simp] theorem setBits_getElem (t : TByte) (m : Byte) (i : Nat) (h : i < 8) :
    (TByte.setBits t m)[i] = if m[i] then .known true else t[i] := by
  simp [TByte.setBits]

@[simp] theorem clearBits_getElem (t : TByte) (m : Byte) (i : Nat) (h : i < 8) :
    (TByte.clearBits t m)[i] = if m[i] then .known false else t[i] := by
  simp [TByte.clearBits]

@[simp] theorem resolve_getElem (t : TByte) (drawn : Byte) (i : Nat) (h : i < 8) :
    (TByte.resolve t drawn)[i] = TBit.resolve t[i] drawn[i] := by
  have all : ∀ b0 b1 b2 b3 b4 b5 b6 b7 : Bool,
      (BitVec.ofBool b7 ++ BitVec.ofBool b6 ++ BitVec.ofBool b5 ++ BitVec.ofBool b4 ++
        BitVec.ofBool b3 ++ BitVec.ofBool b2 ++ BitVec.ofBool b1 ++ BitVec.ofBool b0 : Byte) =
      BitVec.ofBoolListLE [b0, b1, b2, b3, b4, b5, b6, b7] := by decide +kernel
  have cases8 : i = 0 ∨ i = 1 ∨ i = 2 ∨ i = 3 ∨ i = 4 ∨ i = 5 ∨ i = 6 ∨ i = 7 := by omega
  simp only [TByte.resolve, all]
  rcases cases8 with rfl | rfl | rfl | rfl | rfl | rfl | rfl | rfl <;>
    simp [← BitVec.getLsbD_eq_getElem]

/-- A byte of known bits leaves the block as it is, whatever is drawn. -/
@[simp] theorem resolve_ofByte (v drawn : Byte) : TByte.resolve (TByte.ofByte v) drawn = v := by
  ext i hi
  simp [TBit.resolve]

/-- A byte of unknown bits leaves the block as what was drawn. -/
@[simp] theorem resolve_unknownByte (drawn : Byte) : TByte.resolve unknownByte drawn = drawn := by
  ext i hi
  simp [TBit.resolve]

/-- A byte of known bits is not the unlisted byte. -/
theorem ofByte_ne_unknownByte (v : Byte) : TByte.ofByte v ≠ unknownByte := by
  intro h
  have := congrArg (fun t : TByte => t[0]) h
  simp at this

/-! ## Attribute bytes -/

theorem attrByte_eq (fg bg : BitVec 4) : attrByte fg bg = bg ++ fg := by
  revert fg bg; decide +kernel

theorem attrWithFg_eq (attr : Byte) (c : BitVec 4) :
    attrWithFg attr c = attr.extractLsb' 4 4 ++ c := by
  revert attr c; decide +kernel

theorem attrWithBg_eq (attr : Byte) (c : BitVec 4) :
    attrWithBg attr c = c ++ attr.extractLsb' 0 4 := by
  revert attr c; decide +kernel

/-! ## The addressing transform -/

theorem pixelBit_lt (x : Nat) : pixelBit x < 8 := by unfold pixelBit; omega

/-- The pixel's mask has its one bit set (`43_planar_writer.md` R126). -/
theorem pixelMask_getElem (x i : Nat) (hi : i < 8) :
    (pixelMask x)[i] = decide (i = pixelBit x) := by
  have all : ∀ k < 8, ∀ i < 8, (0x80#8 >>> k).getLsbD i = decide (i = 7 - k) := by decide
  rw [← BitVec.getLsbD_eq_getElem]
  exact all (x % 8) (Nat.mod_lt _ (by decide)) i hi

theorem pixelOffset_lt {x y : Nat} (hx : x < Config.width) (hy : y < Config.height) :
    pixelOffset x y < Config.visiblePlaneBytes := by
  simp only [pixelOffset, Config.width, Config.height, Config.bytesPerRow,
    Config.visiblePlaneBytes] at *
  omega

/-- Two pixels in range share offset and bit only if they are the same pixel. -/
theorem pixel_injective {x y x' y' : Nat} (hx : x < Config.width) (hx' : x' < Config.width)
    (ho : pixelOffset x y = pixelOffset x' y') (hb : pixelBit x = pixelBit x') :
    x = x' ∧ y = y' := by
  simp only [pixelOffset, pixelBit, Config.width, Config.bytesPerRow] at *
  omega

theorem coordOutOfRange_iff (x y : Nat) :
    coordOutOfRange x y = true ↔ Config.width ≤ x ∨ Config.height ≤ y := by
  simp [coordOutOfRange]

theorem coordOutOfRange_eq_false {x y : Nat} (hx : x < Config.width) (hy : y < Config.height) :
    coordOutOfRange x y = false := by
  simp [coordOutOfRange, hx, hy]

/-! ## Plane selection -/

@[simp] theorem forcedByte_eq (p : Nat) : forcedByte p = 0x00#8 := by
  simp [forcedByte, Config.setResetValue]

theorem planeSelect_getLsbD (p q : BitVec 2) :
    (planeSelect p).getLsbD q.toNat = decide (q = p) := by
  revert p q; decide

/-! ## The palette -/

theorem paletteLut_getElem (p : List Byte) (i : Nat) (h : i < 256) :
    (paletteLut p)[i] = ⟨paletteChannel p i 0, paletteChannel p i 1, paletteChannel p i 2⟩ := by
  simp [paletteLut]

theorem paletteOutOfRange_iff (p : List Byte) :
    paletteOutOfRange p = true ↔ ∃ v ∈ p, Config.channelMax < v.toNat := by
  simp [paletteOutOfRange]

theorem paletteOutOfRange_eq_false {p : List Byte} (h : ∀ v ∈ p, v.toNat ≤ Config.channelMax) :
    paletteOutOfRange p = false := by
  rw [← Bool.not_eq_true, paletteOutOfRange_iff]
  rintro ⟨v, hv, hlt⟩
  exact absurd (h v hv) (Nat.not_le_of_lt hlt)

theorem defaultPalette_length : Config.defaultPalette.length = Config.paletteBytes := by
  simp [Config.defaultPalette]

theorem defaultPalette_le {b : Byte} (h : b ∈ Config.defaultPalette) :
    b.toNat ≤ Config.channelMax := by
  obtain ⟨j, -, rfl⟩ := List.mem_map.mp h
  have := (Config.defaultPaletteChannel j).isLt
  simp only [BitVec.toNat_setWidth, Config.channelMax]
  omega

/-- The channels of DEFAULT_PALETTE as LUT channels (`40_color_model.md` R94). -/
theorem paletteChannel_default {i k : Nat} (h : 3 * i + k < Config.paletteBytes) :
    paletteChannel Config.defaultPalette i k = .set (Config.defaultPaletteChannel (3 * i + k)) := by
  have narrow : ∀ v : BitVec 6, (v.setWidth 8).setWidth 6 = v := by decide +kernel
  have hl : 3 * i + k < Config.defaultPalette.length := by rw [defaultPalette_length]; exact h
  rw [paletteChannel, List.getD_eq_getElem _ _ hl]
  simp only [Config.defaultPalette, List.getElem_map, List.getElem_range, narrow]

end Sys2Proof.Machine
end

