-- ==== Sys2Proof/Laws/State.lean ====
section
/-! SUPPORT. One lemma per field per update of the block and of the machine, true by rfl, so that no
proof unfolds a record update. -/

namespace Sys2Proof.Machine

/-! ## The block's fields -/

section logEvent
variable (e : Event) (b : Block)
@[simp] theorem Block.logEvent_mode : (b.logEvent e).mode = b.mode := rfl
@[simp] theorem Block.logEvent_planeMask : (b.logEvent e).planeMask = b.planeMask := rfl
@[simp] theorem Block.logEvent_writeEnable : (b.logEvent e).writeEnable = b.writeEnable := rfl
@[simp] theorem Block.logEvent_readPlane : (b.logEvent e).readPlane = b.readPlane := rfl
@[simp] theorem Block.logEvent_lockOwner : (b.logEvent e).lockOwner = b.lockOwner := rfl
@[simp] theorem Block.logEvent_fault : (b.logEvent e).fault = b.fault := rfl
@[simp] theorem Block.logEvent_faultCaller : (b.logEvent e).faultCaller = b.faultCaller := rfl
@[simp] theorem Block.logEvent_faultWord : (b.logEvent e).faultWord = b.faultWord := rfl
@[simp] theorem Block.logEvent_halted : (b.logEvent e).halted = b.halted := rfl
@[simp] theorem Block.logEvent_log : (b.logEvent e).log = b.log ++ [e] := rfl
@[simp] theorem Block.logEvent_planes : (b.logEvent e).planes = b.planes := rfl
@[simp] theorem Block.logEvent_lut : (b.logEvent e).lut = b.lut := rfl

end logEvent

section acquire
variable (c : CallerId) (b : Block)
@[simp] theorem Block.acquire_mode : (b.acquire c).mode = b.mode := rfl
@[simp] theorem Block.acquire_planeMask : (b.acquire c).planeMask = b.planeMask := rfl
@[simp] theorem Block.acquire_writeEnable : (b.acquire c).writeEnable = b.writeEnable := rfl
@[simp] theorem Block.acquire_readPlane : (b.acquire c).readPlane = b.readPlane := rfl
@[simp] theorem Block.acquire_lockOwner : (b.acquire c).lockOwner = some c := rfl
@[simp] theorem Block.acquire_fault : (b.acquire c).fault = b.fault := rfl
@[simp] theorem Block.acquire_faultCaller : (b.acquire c).faultCaller = b.faultCaller := rfl
@[simp] theorem Block.acquire_faultWord : (b.acquire c).faultWord = b.faultWord := rfl
@[simp] theorem Block.acquire_halted : (b.acquire c).halted = b.halted := rfl
@[simp] theorem Block.acquire_log : (b.acquire c).log = b.log ++ [.acquire c] := rfl
@[simp] theorem Block.acquire_planes : (b.acquire c).planes = b.planes := rfl
@[simp] theorem Block.acquire_lut : (b.acquire c).lut = b.lut := rfl

end acquire

section release
variable (c : CallerId) (b : Block)
@[simp] theorem Block.release_mode : (b.release c).mode = b.mode := rfl
@[simp] theorem Block.release_planeMask : (b.release c).planeMask = b.planeMask := rfl
@[simp] theorem Block.release_writeEnable : (b.release c).writeEnable = b.writeEnable := rfl
@[simp] theorem Block.release_readPlane : (b.release c).readPlane = b.readPlane := rfl
@[simp] theorem Block.release_lockOwner : (b.release c).lockOwner = none := rfl
@[simp] theorem Block.release_fault : (b.release c).fault = b.fault := rfl
@[simp] theorem Block.release_faultCaller : (b.release c).faultCaller = b.faultCaller := rfl
@[simp] theorem Block.release_faultWord : (b.release c).faultWord = b.faultWord := rfl
@[simp] theorem Block.release_halted : (b.release c).halted = b.halted := rfl
@[simp] theorem Block.release_log : (b.release c).log = b.log ++ [.release c] := rfl
@[simp] theorem Block.release_planes : (b.release c).planes = b.planes := rfl
@[simp] theorem Block.release_lut : (b.release c).lut = b.lut := rfl

end release

section writePlaneMask
variable (c : CallerId) (v : BitVec 4) (b : Block)
@[simp] theorem Block.writePlaneMask_mode : (b.writePlaneMask c v).mode = b.mode := rfl
@[simp] theorem Block.writePlaneMask_planeMask : (b.writePlaneMask c v).planeMask = .set v := rfl
@[simp] theorem Block.writePlaneMask_writeEnable : (b.writePlaneMask c v).writeEnable = b.writeEnable := rfl
@[simp] theorem Block.writePlaneMask_readPlane : (b.writePlaneMask c v).readPlane = b.readPlane := rfl
@[simp] theorem Block.writePlaneMask_lockOwner : (b.writePlaneMask c v).lockOwner = b.lockOwner := rfl
@[simp] theorem Block.writePlaneMask_fault : (b.writePlaneMask c v).fault = b.fault := rfl
@[simp] theorem Block.writePlaneMask_faultCaller : (b.writePlaneMask c v).faultCaller = b.faultCaller := rfl
@[simp] theorem Block.writePlaneMask_faultWord : (b.writePlaneMask c v).faultWord = b.faultWord := rfl
@[simp] theorem Block.writePlaneMask_halted : (b.writePlaneMask c v).halted = b.halted := rfl
@[simp] theorem Block.writePlaneMask_log : (b.writePlaneMask c v).log = b.log ++ [.regWrite c (.planeMask v)] := rfl
@[simp] theorem Block.writePlaneMask_planes : (b.writePlaneMask c v).planes = b.planes := rfl
@[simp] theorem Block.writePlaneMask_lut : (b.writePlaneMask c v).lut = b.lut := rfl

end writePlaneMask

section writeWriteEnable
variable (c : CallerId) (v : BitVec 4) (b : Block)
@[simp] theorem Block.writeWriteEnable_mode : (b.writeWriteEnable c v).mode = b.mode := rfl
@[simp] theorem Block.writeWriteEnable_planeMask : (b.writeWriteEnable c v).planeMask = b.planeMask := rfl
@[simp] theorem Block.writeWriteEnable_writeEnable : (b.writeWriteEnable c v).writeEnable = .set v := rfl
@[simp] theorem Block.writeWriteEnable_readPlane : (b.writeWriteEnable c v).readPlane = b.readPlane := rfl
@[simp] theorem Block.writeWriteEnable_lockOwner : (b.writeWriteEnable c v).lockOwner = b.lockOwner := rfl
@[simp] theorem Block.writeWriteEnable_fault : (b.writeWriteEnable c v).fault = b.fault := rfl
@[simp] theorem Block.writeWriteEnable_faultCaller : (b.writeWriteEnable c v).faultCaller = b.faultCaller := rfl
@[simp] theorem Block.writeWriteEnable_faultWord : (b.writeWriteEnable c v).faultWord = b.faultWord := rfl
@[simp] theorem Block.writeWriteEnable_halted : (b.writeWriteEnable c v).halted = b.halted := rfl
@[simp] theorem Block.writeWriteEnable_log : (b.writeWriteEnable c v).log = b.log ++ [.regWrite c (.writeEnable v)] := rfl
@[simp] theorem Block.writeWriteEnable_planes : (b.writeWriteEnable c v).planes = b.planes := rfl
@[simp] theorem Block.writeWriteEnable_lut : (b.writeWriteEnable c v).lut = b.lut := rfl

end writeWriteEnable

section writeReadPlane
variable (c : CallerId) (v : BitVec 2) (b : Block)
@[simp] theorem Block.writeReadPlane_mode : (b.writeReadPlane c v).mode = b.mode := rfl
@[simp] theorem Block.writeReadPlane_planeMask : (b.writeReadPlane c v).planeMask = b.planeMask := rfl
@[simp] theorem Block.writeReadPlane_writeEnable : (b.writeReadPlane c v).writeEnable = b.writeEnable := rfl
@[simp] theorem Block.writeReadPlane_readPlane : (b.writeReadPlane c v).readPlane = .set v := rfl
@[simp] theorem Block.writeReadPlane_lockOwner : (b.writeReadPlane c v).lockOwner = b.lockOwner := rfl
@[simp] theorem Block.writeReadPlane_fault : (b.writeReadPlane c v).fault = b.fault := rfl
@[simp] theorem Block.writeReadPlane_faultCaller : (b.writeReadPlane c v).faultCaller = b.faultCaller := rfl
@[simp] theorem Block.writeReadPlane_faultWord : (b.writeReadPlane c v).faultWord = b.faultWord := rfl
@[simp] theorem Block.writeReadPlane_halted : (b.writeReadPlane c v).halted = b.halted := rfl
@[simp] theorem Block.writeReadPlane_log : (b.writeReadPlane c v).log = b.log ++ [.regWrite c (.readPlane v)] := rfl
@[simp] theorem Block.writeReadPlane_planes : (b.writeReadPlane c v).planes = b.planes := rfl
@[simp] theorem Block.writeReadPlane_lut : (b.writeReadPlane c v).lut = b.lut := rfl

end writeReadPlane

section loadLut
variable (c : CallerId) (p : List Byte) (b : Block)
@[simp] theorem Block.loadLut_mode : (b.loadLut c p).mode = b.mode := rfl
@[simp] theorem Block.loadLut_planeMask : (b.loadLut c p).planeMask = b.planeMask := rfl
@[simp] theorem Block.loadLut_writeEnable : (b.loadLut c p).writeEnable = b.writeEnable := rfl
@[simp] theorem Block.loadLut_readPlane : (b.loadLut c p).readPlane = b.readPlane := rfl
@[simp] theorem Block.loadLut_lockOwner : (b.loadLut c p).lockOwner = b.lockOwner := rfl
@[simp] theorem Block.loadLut_fault : (b.loadLut c p).fault = b.fault := rfl
@[simp] theorem Block.loadLut_faultCaller : (b.loadLut c p).faultCaller = b.faultCaller := rfl
@[simp] theorem Block.loadLut_faultWord : (b.loadLut c p).faultWord = b.faultWord := rfl
@[simp] theorem Block.loadLut_halted : (b.loadLut c p).halted = b.halted := rfl
@[simp] theorem Block.loadLut_log : (b.loadLut c p).log = b.log ++ [.pal c] := rfl
@[simp] theorem Block.loadLut_planes : (b.loadLut c p).planes = b.planes := rfl
@[simp] theorem Block.loadLut_lut : (b.loadLut c p).lut = paletteLut p := rfl

end loadLut

section modeSwitch
variable (c : CallerId) (n : Nat) (b : Block)
@[simp] theorem Block.modeSwitch_mode : (b.modeSwitch c n).mode = .gfx640 := rfl
@[simp] theorem Block.modeSwitch_planeMask : (b.modeSwitch c n).planeMask = .unset := rfl
@[simp] theorem Block.modeSwitch_writeEnable : (b.modeSwitch c n).writeEnable = .unset := rfl
@[simp] theorem Block.modeSwitch_readPlane : (b.modeSwitch c n).readPlane = .unset := rfl
@[simp] theorem Block.modeSwitch_lockOwner : (b.modeSwitch c n).lockOwner = b.lockOwner := rfl
@[simp] theorem Block.modeSwitch_fault : (b.modeSwitch c n).fault = b.fault := rfl
@[simp] theorem Block.modeSwitch_faultCaller : (b.modeSwitch c n).faultCaller = b.faultCaller := rfl
@[simp] theorem Block.modeSwitch_faultWord : (b.modeSwitch c n).faultWord = b.faultWord := rfl
@[simp] theorem Block.modeSwitch_halted : (b.modeSwitch c n).halted = b.halted := rfl
@[simp] theorem Block.modeSwitch_log : (b.modeSwitch c n).log = b.log ++ [.mode c] := rfl
@[simp] theorem Block.modeSwitch_planes : (b.modeSwitch c n).planes = Vector.replicate 4 [] := rfl
@[simp] theorem Block.modeSwitch_lut : (b.modeSwitch c n).lut = drawnLut n := rfl

end modeSwitch

section raiseFault
variable (f : FaultCode) (c : CallerId) (w : Word) (b : Block)
@[simp] theorem Block.raiseFault_mode : (b.raiseFault f c w).mode = b.mode := rfl
@[simp] theorem Block.raiseFault_planeMask : (b.raiseFault f c w).planeMask = b.planeMask := rfl
@[simp] theorem Block.raiseFault_writeEnable : (b.raiseFault f c w).writeEnable = b.writeEnable := rfl
@[simp] theorem Block.raiseFault_readPlane : (b.raiseFault f c w).readPlane = b.readPlane := rfl
@[simp] theorem Block.raiseFault_lockOwner : (b.raiseFault f c w).lockOwner = b.lockOwner := rfl
@[simp] theorem Block.raiseFault_fault : (b.raiseFault f c w).fault = f.code := rfl
@[simp] theorem Block.raiseFault_faultCaller : (b.raiseFault f c w).faultCaller = some c := rfl
@[simp] theorem Block.raiseFault_faultWord : (b.raiseFault f c w).faultWord = some w := rfl
@[simp] theorem Block.raiseFault_halted : (b.raiseFault f c w).halted = true := rfl
@[simp] theorem Block.raiseFault_log : (b.raiseFault f c w).log = b.log := rfl
@[simp] theorem Block.raiseFault_planes : (b.raiseFault f c w).planes = b.planes := rfl
@[simp] theorem Block.raiseFault_lut : (b.raiseFault f c w).lut = b.lut := rfl

end raiseFault

section setCaller
variable (c : CallerId) (k : Caller) (s : State)
@[simp] theorem State.setCaller_block : (s.setCaller c k).block = s.block := rfl
@[simp] theorem State.setCaller_port : (s.setCaller c k).port = s.port := rfl
@[simp] theorem State.setCaller_callers : (s.setCaller c k).callers = store Caller.idle s.callers c k := rfl
@[simp] theorem State.setCaller_draws : (s.setCaller c k).draws = s.draws := rfl
@[simp] theorem State.setCaller_resetInput : (s.setCaller c k).resetInput = s.resetInput := rfl

end setCaller

section respond
variable (r : Response) (s : State)
@[simp] theorem State.respond_block : (s.respond r).block = s.block := rfl
@[simp] theorem State.respond_port : (s.respond r).port = s.port := rfl
@[simp] theorem State.respond_draws : (s.respond r).draws = s.draws := rfl
@[simp] theorem State.respond_resetInput : (s.respond r).resetInput = s.resetInput := rfl

end respond

section raised
variable (f : FaultCode) (s : State)
@[simp] theorem State.raised_block : (s.raised f).block = s.block.raiseFault f s.issuer s.port.command.word := rfl
@[simp] theorem State.raised_port : (s.raised f).port = s.port := rfl
@[simp] theorem State.raised_callers : (s.raised f).callers = s.callers := rfl
@[simp] theorem State.raised_draws : (s.raised f).draws = s.draws := rfl
@[simp] theorem State.raised_resetInput : (s.raised f).resetInput = s.resetInput := rfl

end raised

section completed
variable (r : Response) (b : Block) (s : State)
@[simp] theorem State.completed_block : (s.completed r b).block = b := rfl
@[simp] theorem State.completed_port : (s.completed r b).port = s.port := rfl
@[simp] theorem State.completed_draws : (s.completed r b).draws = s.draws := rfl
@[simp] theorem State.completed_resetInput : (s.completed r b).resetInput = s.resetInput := rfl

end completed

section countTurn
variable (s : State)
@[simp] theorem State.countTurn_block : s.countTurn.block = s.block := rfl
@[simp] theorem State.countTurn_port : s.countTurn.port = s.port := rfl
@[simp] theorem State.countTurn_callers : s.countTurn.callers = s.callers := rfl
@[simp] theorem State.countTurn_draws :
    s.countTurn.draws = { s.draws with choices := s.draws.choices + 1 } := rfl
@[simp] theorem State.countTurn_resetInput : s.countTurn.resetInput = s.resetInput := rfl
@[simp] theorem State.caller_countTurn (c : CallerId) : s.countTurn.caller c = s.caller c := rfl

end countTurn

section issue
variable (c : CallerId) (s : State)
@[simp] theorem State.issue_block : (s.issue c).block = s.block := rfl
@[simp] theorem State.issue_port : (s.issue c).port = s.port := rfl
@[simp] theorem State.issue_callers : (s.issue c).callers =
    store Caller.idle s.callers c { s.caller c with issued := true } := rfl
@[simp] theorem State.issue_draws :
    (s.issue c).draws = { s.draws with choices := s.draws.choices + 1 } := rfl
@[simp] theorem State.issue_resetInput : (s.issue c).resetInput = s.resetInput := rfl

end issue

section grant
variable (t : Transaction) (s : State)
@[simp] theorem State.grant_block : (s.grant t).block = s.block := rfl
@[simp] theorem State.grant_port : (s.grant t).port = t := rfl
@[simp] theorem State.grant_callers : (s.grant t).callers = s.callers := rfl
@[simp] theorem State.grant_draws : (s.grant t).draws = { s.draws with choices := s.draws.choices + 1 } := rfl
@[simp] theorem State.grant_resetInput : (s.grant t).resetInput = s.resetInput := rfl

end grant

/-! ## The port -/

@[simp] theorem State.issuer_issue (c : CallerId) (s : State) : (s.issue c).issuer = s.issuer := rfl
@[simp] theorem State.issuer_grant (t : Transaction) (s : State) : (s.grant t).issuer = t.caller := rfl
@[simp] theorem State.issuer_raised (f : FaultCode) (s : State) : (s.raised f).issuer = s.issuer := rfl
@[simp] theorem State.issuer_respond (r : Response) (s : State) : (s.respond r).issuer = s.issuer := rfl

/-! ## Reset -/

@[simp] theorem State.takeReset_block (s : State) : s.takeReset.block = Block.reset := rfl
@[simp] theorem State.takeReset_draws (s : State) : s.takeReset.draws = s.draws := rfl
@[simp] theorem State.takeReset_resetInput (s : State) : s.takeReset.resetInput = false := rfl
@[simp] theorem State.takeReset_callers (s : State) :
    s.takeReset.callers = restartedCallers s.callers := rfl

end Sys2Proof.Machine
end

