-- ==== Sys2Proof/Laws/Ops.lean ====
section
/-! SUPPORT. One specification per shared operation: everything MemRead, MemWrite, a SET_PIXEL round
and the clear's sweep can do, and how the callers' map changes. -/

namespace Sys2Proof.Machine

/-! ## MemRead -/

/-- MemRead with READ_PLANE set: the byte of that plane, and its event (`20_memory.md` R47). -/
theorem memRead_eq {b : Block} {p : BitVec 2} (h : b.readPlane = .set p) (c : CallerId) (off : Nat) :
    b.memRead c off = (b.planeByte (planeIndex p) off,
      b.logEvent (.rd c p off (b.planeByte (planeIndex p) off))) := by
  simp [Block.memRead, h]

/-! ## MemWrite -/

/-- MemWrite with both masks set, as one update (`20_memory.md` R48). -/
theorem memWrite_eq {b : Block} {pm we : BitVec 4} (hp : b.planeMask = .set pm)
    (hw : b.writeEnable = .set we) (c : CallerId) (off : Nat) (v : TByte) :
    b.memWrite c off v =
      { b with
        planes := Vector.ofFn fun p : Fin 4 => writePlane off v pm we p b.planes[p]
        log := b.log ++ [.wr c off v pm we] } := by
  simp [Block.memWrite, hp, hw, Block.logEvent]

section memWrite
variable (c : CallerId) (off : Nat) (v : TByte) (b : Block)

@[simp] theorem memWrite_mode : (b.memWrite c off v).mode = b.mode := by
  unfold Block.memWrite; split <;> rfl
@[simp] theorem memWrite_planeMask : (b.memWrite c off v).planeMask = b.planeMask := by
  unfold Block.memWrite; split <;> rfl
@[simp] theorem memWrite_writeEnable : (b.memWrite c off v).writeEnable = b.writeEnable := by
  unfold Block.memWrite; split <;> rfl
@[simp] theorem memWrite_readPlane : (b.memWrite c off v).readPlane = b.readPlane := by
  unfold Block.memWrite; split <;> rfl
@[simp] theorem memWrite_lockOwner : (b.memWrite c off v).lockOwner = b.lockOwner := by
  unfold Block.memWrite; split <;> rfl
@[simp] theorem memWrite_fault : (b.memWrite c off v).fault = b.fault := by
  unfold Block.memWrite; split <;> rfl
@[simp] theorem memWrite_faultCaller : (b.memWrite c off v).faultCaller = b.faultCaller := by
  unfold Block.memWrite; split <;> rfl
@[simp] theorem memWrite_faultWord : (b.memWrite c off v).faultWord = b.faultWord := by
  unfold Block.memWrite; split <;> rfl
@[simp] theorem memWrite_halted : (b.memWrite c off v).halted = b.halted := by
  unfold Block.memWrite; split <;> rfl
@[simp] theorem memWrite_lut : (b.memWrite c off v).lut = b.lut := by
  unfold Block.memWrite; split <;> rfl

end memWrite

/-- What one plane reads as after a write of it. -/
theorem writePlane_read (off : Nat) (v : TByte) (pm we : BitVec 4) (p : Nat) (m : Memory) (a : Nat) :
    (writePlane off v pm we p m).read a =
      if pm.getLsbD p ∧ a = off then
        if we.getLsbD p then TByte.ofByte (forcedByte p) else v
      else m.read a := by
  unfold writePlane
  by_cases h : pm.getLsbD p = true
  · simp [h, Memory.read_write]
  · simp [h]

theorem writePlane_wf {m : Memory} (h : m.wf) {off : Nat} (ho : off < Config.windowBytes)
    (v : TByte) (pm we : BitVec 4) (p : Nat) : (writePlane off v pm we p m).wf := by
  unfold writePlane
  split
  · exact Memory.write_wf h ho _
  · exact h

/-- Every byte after a MemWrite (`20_memory.md` R48). -/
theorem memWrite_planeByte {b : Block} {pm we : BitVec 4} (hp : b.planeMask = .set pm)
    (hw : b.writeEnable = .set we) (c : CallerId) (off : Nat) (v : TByte) (p : Fin 4) (a : Nat) :
    (b.memWrite c off v).planeByte p a =
      if pm.getLsbD p ∧ a = off then
        if we.getLsbD p then TByte.ofByte (forcedByte p) else v
      else b.planeByte p a := by
  simp [memWrite_eq hp hw, Block.planeByte, writePlane_read]

/-- Every plane in canonical form. -/
abbrev Block.planesWf (b : Block) : Prop := ∀ p : Fin 4, b.planes[p].wf

theorem memWrite_planesWf {b : Block} (h : b.planesWf) {off : Nat} (ho : off < Config.windowBytes)
    (c : CallerId) (v : TByte) : (b.memWrite c off v).planesWf := by
  intro p
  unfold Block.memWrite
  split
  · simpa using writePlane_wf (h p) ho _ _ _ _
  · exact h p

/-! ## A round of SET_PIXEL -/

/-- The byte a round writes: the read byte with the pixel's bit of plane `p` merged in. -/
def mergedByte (t : TByte) (m : Byte) (color : BitVec 4) (p : BitVec 2) : TByte :=
  if color.getLsbD p.toNat then TByte.setBits t m else TByte.clearBits t m

theorem mergedByte_getElem (t : TByte) (m : Byte) (color : BitVec 4) (p : BitVec 2) (i : Nat)
    (h : i < 8) :
    (mergedByte t m color p)[i] = if m[i] then .known (color.getLsbD p.toNat) else t[i] := by
  unfold mergedByte
  split <;> simp [*]

/-- The four events of a round (`43_planar_writer.md` R132, R137). -/
def roundEvents (c : CallerId) (off : Nat) (m : Byte) (color : BitVec 4) (p : BitVec 2) (t : TByte) :
    List Event :=
  [.regWrite c (.readPlane p), .regWrite c (.planeMask (planeSelect p)), .rd c p off t,
    .wr c off (mergedByte t m color p) (planeSelect p) 0#4]

/-- A whole round, with WRITE_ENABLE at 0. -/
theorem pixelRound_eq {b : Block} (hw : b.writeEnable = .set 0#4) (c : CallerId) (off : Nat)
    (m : Byte) (color : BitVec 4) (p : BitVec 2) :
    b.pixelRound c off m color p =
      { b with
        readPlane := .set p
        planeMask := .set (planeSelect p)
        planes := Vector.ofFn fun q : Fin 4 =>
          writePlane off (mergedByte (b.planeByte (planeIndex p) off) m color p) (planeSelect p) 0#4
            q b.planes[q]
        log := b.log ++ roundEvents c off m color p (b.planeByte (planeIndex p) off) } := by
  simp [Block.pixelRound, Block.memRead, Block.memWrite, hw, Block.writeReadPlane,
    Block.writePlaneMask, Block.logEvent, mergedByte, roundEvents, Block.planeByte]

theorem planeIndex_val (p : BitVec 2) : (planeIndex p : Nat) = p.toNat := rfl

/-- Every byte after a round: only the pixel's byte of plane `p` changes. -/
theorem pixelRound_planeByte {b : Block} (hw : b.writeEnable = .set 0#4) (c : CallerId) (off : Nat)
    (m : Byte) (color : BitVec 4) (p : BitVec 2) (q : Fin 4) (a : Nat) :
    (b.pixelRound c off m color p).planeByte q a =
      if q = planeIndex p ∧ a = off then mergedByte (b.planeByte q off) m color p
      else b.planeByte q a := by
  have hsel : (planeSelect p).getLsbD q = decide (q = planeIndex p) := by
    revert p q; decide
  simp only [pixelRound_eq hw, Block.planeByte, Fin.getElem_fin, Vector.getElem_ofFn,
    writePlane_read, hsel, BitVec.getLsbD_zero, Bool.false_eq_true, if_false,
    decide_eq_true_eq]
  by_cases hq : q = planeIndex p
  · subst hq; rfl
  · simp [hq]

/-! ## The clear's sweep -/

section clearSweep
variable {b : Block} (hp : b.planeMask = .set 0b1111#4) (hw : b.writeEnable = .set 0b0000#4)
  (c : CallerId)
include hp hw

/-- The sweep's fields: only the planes and the log change. -/
theorem clearSweep_eq (n : Nat) :
    ∃ planes, b.clearSweep c n = { b with
      planes := planes
      log := b.log ++
        (List.range n).map fun off => .wr c off (TByte.ofByte 0x00#8) 0b1111#4 0b0000#4 } := by
  induction n with
  | zero => exact ⟨b.planes, by simp [Block.clearSweep]⟩
  | succ n ih =>
    obtain ⟨planes, h⟩ := ih
    have hp' : (b.clearSweep c n).planeMask = .set 0b1111#4 := by rw [h]; exact hp
    have hw' : (b.clearSweep c n).writeEnable = .set 0b0000#4 := by rw [h]; exact hw
    rw [Block.clearSweep, memWrite_eq hp' hw', h]
    simp only [List.range_succ, List.map_append, List.map_cons, List.map_nil, List.append_assoc]
    exact ⟨_, rfl⟩

/-- Every byte after `n` writes of the sweep (`43_planar_writer.md` R135). -/
theorem clearSweep_planeByte (n : Nat) (p : Fin 4) (a : Nat) :
    (b.clearSweep c n).planeByte p a =
      if a < n then TByte.ofByte 0x00#8 else b.planeByte p a := by
  induction n with
  | zero => simp [Block.clearSweep]
  | succ n ih =>
    obtain ⟨planes, h⟩ := clearSweep_eq hp hw c n
    have hall : ∀ p : Fin 4, (0b1111#4).getLsbD p = true := by decide
    rw [Block.clearSweep, memWrite_planeByte (pm := 0b1111#4) (we := 0b0000#4)
      (by rw [h]; exact hp) (by rw [h]; exact hw), ih]
    by_cases ha : a = n
    · simp [ha, hall p]
    · have hlt : a < n + 1 ↔ a < n := by omega
      simp [ha, hlt]

omit hp hw in
/-- The sweep keeps every plane's canonical form. -/
theorem clearSweep_planesWf (h : b.planesWf) {n : Nat} (hn : n ≤ Config.windowBytes) :
    (b.clearSweep c n).planesWf := by
  induction n with
  | zero => exact h
  | succ n ih => exact memWrite_planesWf (ih (by omega)) (by omega) _ _

end clearSweep

/-! ## The callers -/

@[simp] theorem caller_setCaller (s : State) (c d : CallerId) (k : Caller) :
    (s.setCaller c k).caller d = if d = c then k else s.caller d := lookup_store

/-- A response goes to the issuing caller alone (`60_exceptions.md` R161). -/
@[simp] theorem caller_respond (s : State) (r : Response) (d : CallerId) :
    (s.respond r).caller d =
      if d = s.issuer then
        { s.caller d with index := (s.caller d).index + 1
                          issued := false
                          responses := (s.caller d).responses ++ [r] }
      else s.caller d := by
  unfold State.respond
  by_cases h : d = s.issuer <;> simp [h]

theorem caller_completed (s : State) (r : Response) (b : Block) (d : CallerId) :
    (s.completed r b).caller d =
      if d = s.issuer then
        { s.caller d with index := (s.caller d).index + 1
                          issued := false
                          responses := (s.caller d).responses ++ [r] }
      else s.caller d := caller_respond { s with block := b } r d

theorem respond_callers (s : State) (r : Response) :
    (s.respond r).callers = store Caller.idle s.callers s.issuer
      { s.caller s.issuer with index := (s.caller s.issuer).index + 1
                               issued := false
                               responses := (s.caller s.issuer).responses ++ [r] } := rfl

/-- Every caller restarts at a reset (`70_reset_and_hazards.md` R165). -/
theorem lookup_restartedCallers {m : List (Nat × Caller)}
    (hm : m.Pairwise (fun e f => e.1 < f.1)) (c : CallerId) :
    lookup Caller.idle (restartedCallers m) c = (lookup Caller.idle m c).restarted := by
  induction m with
  | nil => rfl
  | cons e m ih =>
    obtain ⟨k, w⟩ := e
    obtain ⟨hk, hs⟩ := List.pairwise_cons.mp hm
    unfold restartedCallers
    by_cases hc : c = k
    · subst hc
      split
      · next hi =>
        have : lookup Caller.idle m c = Caller.idle := lookup_of_lt fun e he => hk e he
        rw [ih hs, this]
        simp [lookup, hi]
        rfl
      · simp [lookup]
    · split <;> simp [lookup, hc, ih hs]

theorem mem_restartedCallers {m : List (Nat × Caller)} {e : Nat × Caller}
    (h : e ∈ restartedCallers m) : ∃ k, (e.1, k) ∈ m ∧ e.2 = k.restarted ∧ e.2 ≠ Caller.idle := by
  induction m with
  | nil => simp [restartedCallers] at h
  | cons f m ih =>
    obtain ⟨c, k⟩ := f
    unfold restartedCallers at h
    split at h
    · obtain ⟨k', hm, hk⟩ := ih h
      exact ⟨k', List.mem_cons_of_mem _ hm, hk⟩
    · next hne =>
      rcases List.mem_cons.mp h with rfl | h
      · exact ⟨k, List.mem_cons_self, rfl, hne⟩
      · obtain ⟨k', hm, hk⟩ := ih h
        exact ⟨k', List.mem_cons_of_mem _ hm, hk⟩

theorem restartedCallers_canonical {m : List (Nat × Caller)} (h : Canonical Caller.idle m) :
    Canonical Caller.idle (restartedCallers m) := by
  refine ⟨?_, fun e he => (mem_restartedCallers he).choose_spec.2.2⟩
  have hs := h.1
  clear h
  induction m with
  | nil => exact .nil
  | cons f m ih =>
    obtain ⟨hf, hm⟩ := List.pairwise_cons.mp hs
    unfold restartedCallers
    split
    · exact ih hm
    · refine List.pairwise_cons.mpr ⟨fun e he => ?_, ih hm⟩
      obtain ⟨k, hk, -⟩ := mem_restartedCallers he
      exact hf (e.1, k) hk

end Sys2Proof.Machine
end

