-- ==== Sys2Proof/Laws/Exec.lean ====
section
/-! SUPPORT. Once for every command, all it can do: hold, raise a fault, or complete with the effect
`Completes` gives it. Proofs about all commands go through `exec_inv`, not through the meanings. -/

namespace Sys2Proof.Machine

/-- Command `i` may complete in `s` with response `r`, leaving the block as `b` and the counters as
`d`. -/
def Completes (i : Instr) (s : State) (r : Response) (b : Block) (d : Draws) : Prop :=
  match i with
  | .setMode =>
    s.block.lockOwner = none ∧ r = .ok ∧ b = s.block.setMode s.issuer s.draws.modeSwitches ∧
      d = { s.draws with modeSwitches := s.draws.modeSwitches + 1 }
  | .clearScreen =>
    s.block.lockOwner = none ∧ s.block.mode = .gfx640 ∧ r = .ok ∧
      b = s.block.clearScreen s.issuer ∧ d = s.draws
  | .setPixel x y color =>
    s.block.lockOwner = none ∧ s.block.mode = .gfx640 ∧ x.toNat < Config.width ∧
      y.toNat < Config.height ∧ r = .ok ∧
      b = s.block.setPixel s.issuer x.toNat y.toNat color ∧ d = s.draws
  | .setPlaneMask m =>
    s.block.lockOwner = some s.issuer ∧ r = .ok ∧ b = s.block.writePlaneMask s.issuer m ∧
      d = s.draws
  | .setWriteEnable m =>
    s.block.lockOwner = some s.issuer ∧ r = .ok ∧ b = s.block.writeWriteEnable s.issuer m ∧
      d = s.draws
  | .setReadPlane p =>
    s.block.lockOwner = some s.issuer ∧ r = .ok ∧ b = s.block.writeReadPlane s.issuer p ∧
      d = s.draws
  | .loadPalette payload =>
    s.block.lockOwner = some s.issuer ∧ r = .ok ∧ b = s.block.loadLut s.issuer payload ∧
      d = s.draws
  | .fbRead off =>
    s.block.lockOwner = some s.issuer ∧ s.block.mode = .gfx640 ∧
      off.toNat < Config.windowBytes ∧ ∃ p, s.block.readPlane = .set p ∧
        r = .okByte (TByte.resolve (s.block.planeByte (planeIndex p) off.toNat)
          (Config.readDraw s.draws.reads)) ∧
        b = s.block.logEvent
          (.rd s.issuer p off.toNat (s.block.planeByte (planeIndex p) off.toNat)) ∧
        d = { s.draws with reads := s.draws.reads + 1 }
  | .fbWrite off data =>
    s.block.lockOwner = some s.issuer ∧ s.block.mode = .gfx640 ∧
      off.toNat < Config.windowBytes ∧
      ∃ pm we, s.block.planeMask = .set pm ∧ s.block.writeEnable = .set we ∧ r = .ok ∧
        b = s.block.memWrite s.issuer off.toNat (TByte.ofByte data) ∧ d = s.draws
  | .attrNew fg bg => r = .okByte (attrByte fg bg) ∧ b = s.block ∧ d = s.draws
  | .attrSetFg a c => r = .okByte (attrWithFg a c) ∧ b = s.block ∧ d = s.draws
  | .attrSetBg a c => r = .okByte (attrWithBg a c) ∧ b = s.block ∧ d = s.draws
  | .lock => s.block.lockOwner = none ∧ r = .ok ∧ b = s.block.acquire s.issuer ∧ d = s.draws
  | .unlock =>
    s.block.lockOwner = some s.issuer ∧ r = .ok ∧ b = s.block.release s.issuer ∧ d = s.draws

/-- Command `i` holds in `s`: the block is halted, or `i` takes a lock that another caller has. -/
def Holds (i : Instr) (s : State) : Prop :=
  s.block.halted = true ∨
    (takesLock i = true ∧ s.block.lockOwner ≠ none ∧ s.block.lockOwner ≠ some s.issuer)

/-- The three ways a command can end, as a relation between the states before and after. -/
def Ends (i : Instr) (s t : State) : Prop :=
  (Holds i s ∧ t = s) ∨ (s.block.halted = false ∧ ∃ f, t = s.raised f) ∨
  (s.block.halted = false ∧ ∃ r b d, Completes i s r b d ∧
    t = ({ s with block := b, draws := d } : State).respond r)

section ends
variable {i : Instr} {s t : State}

theorem Ends.of_hold (hh : Holds i s) (h : s.hold = .next t) : Ends i s t := by
  cases h; exact .inl ⟨hh, rfl⟩

theorem Ends.of_raise {f : FaultCode} (hh : ¬ s.block.halted = true) (h : s.raise f = .next t) :
    Ends i s t := by
  cases h; exact .inr (.inl ⟨by simpa using hh, f, rfl⟩)

theorem Ends.of_complete {r : Response} {b : Block} {d : Draws} (hh : ¬ s.block.halted = true)
    (hc : Completes i s r b d)
    (h : ({ s with draws := d } : State).complete r b = .next t) : Ends i s t := by
  cases h; exact .inr (.inr ⟨by simpa using hh, r, b, d, hc, rfl⟩)

end ends

theorem Reg.exists_set {w : Nat} {r : Reg w} (h : r ≠ .unset) : ∃ v, r = .set v := by
  cases r with
  | unset => exact absurd rfl h
  | set v => exact ⟨v, rfl⟩

/-- What any command can do. -/
theorem exec_inv {i : Instr} {s t : State} (h : exec i s = .next t) : Ends i s t := by
  cases i with
  | setMode =>
    simp only [exec, execSetMode] at h
    split_ifs at h with hh h1 h2
    · exact .of_hold (.inl hh) h
    · exact .of_raise hh h
    · exact .of_hold (.inr ⟨rfl, h2, h1⟩) h
    · exact .of_complete hh ⟨not_not.mp h2, rfl, rfl, rfl⟩ h
  | clearScreen =>
    simp only [exec, execClearScreen] at h
    split_ifs at h with hh h1 h2 h3
    · exact .of_hold (.inl hh) h
    · exact .of_raise hh h
    · exact .of_hold (.inr ⟨rfl, h2, h1⟩) h
    · exact .of_raise hh h
    · exact .of_complete hh ⟨not_not.mp h2, not_not.mp h3, rfl, rfl, rfl⟩ h
  | setPixel x y color =>
    simp only [exec, execSetPixel] at h
    split_ifs at h with hh h1 h2 h3 h4
    · exact .of_hold (.inl hh) h
    · exact .of_raise hh h
    · exact .of_hold (.inr ⟨rfl, h2, h1⟩) h
    · exact .of_raise hh h
    · exact .of_raise hh h
    · rw [coordOutOfRange_iff, not_or, not_le, not_le] at h4
      exact .of_complete hh ⟨not_not.mp h2, not_not.mp h3, h4.1, h4.2, rfl, rfl, rfl⟩ h
  | setPlaneMask m =>
    simp only [exec, execSetPlaneMask] at h
    split_ifs at h with hh h1
    · exact .of_hold (.inl hh) h
    · exact .of_raise hh h
    · exact .of_complete hh ⟨not_not.mp h1, rfl, rfl, rfl⟩ h
  | setWriteEnable m =>
    simp only [exec, execSetWriteEnable] at h
    split_ifs at h with hh h1
    · exact .of_hold (.inl hh) h
    · exact .of_raise hh h
    · exact .of_complete hh ⟨not_not.mp h1, rfl, rfl, rfl⟩ h
  | setReadPlane p =>
    simp only [exec, execSetReadPlane] at h
    split_ifs at h with hh h1
    · exact .of_hold (.inl hh) h
    · exact .of_raise hh h
    · exact .of_complete hh ⟨not_not.mp h1, rfl, rfl, rfl⟩ h
  | loadPalette payload =>
    simp only [exec, execLoadPalette] at h
    split_ifs at h with hh h1 h2 h3
    · exact .of_hold (.inl hh) h
    · exact .of_raise hh h
    · exact .of_raise hh h
    · exact .of_raise hh h
    · exact .of_complete hh ⟨not_not.mp h2, rfl, rfl, rfl⟩ h
  | fbRead off =>
    simp only [exec, execFbRead] at h
    split_ifs at h with hh h1 h2 h3 h4
    · exact .of_hold (.inl hh) h
    · exact .of_raise hh h
    · exact .of_raise hh h
    · exact .of_raise hh h
    · exact .of_raise hh h
    · obtain ⟨p, hp⟩ := Reg.exists_set h4
      rw [memRead_eq hp] at h
      have ho : off.toNat < Config.windowBytes := by simpa [offOutOfWindow] using h3
      exact .of_complete hh ⟨not_not.mp h1, not_not.mp h2, ho, p, hp, rfl, rfl, rfl⟩ h
  | fbWrite off data =>
    simp only [exec, execFbWrite] at h
    split_ifs at h with hh h1 h2 h3 h4
    · exact .of_hold (.inl hh) h
    · exact .of_raise hh h
    · exact .of_raise hh h
    · exact .of_raise hh h
    · exact .of_raise hh h
    · obtain ⟨hpm, hwe⟩ := not_or.mp h4
      obtain ⟨pm, hpm⟩ := Reg.exists_set hpm
      obtain ⟨we, hwe⟩ := Reg.exists_set hwe
      have ho : off.toNat < Config.windowBytes := by simpa [offOutOfWindow] using h3
      exact .of_complete hh
        ⟨not_not.mp h1, not_not.mp h2, ho, pm, we, hpm, hwe, rfl, rfl, rfl⟩ h
  | attrNew fg bg =>
    simp only [exec, execAttrNew] at h
    split_ifs at h with hh
    · exact .of_hold (.inl hh) h
    · exact .of_complete hh ⟨rfl, rfl, rfl⟩ h
  | attrSetFg a c =>
    simp only [exec, execAttrSetFg] at h
    split_ifs at h with hh
    · exact .of_hold (.inl hh) h
    · exact .of_complete hh ⟨rfl, rfl, rfl⟩ h
  | attrSetBg a c =>
    simp only [exec, execAttrSetBg] at h
    split_ifs at h with hh
    · exact .of_hold (.inl hh) h
    · exact .of_complete hh ⟨rfl, rfl, rfl⟩ h
  | lock =>
    simp only [exec, execLock] at h
    split_ifs at h with hh h1 h2
    · exact .of_hold (.inl hh) h
    · exact .of_raise hh h
    · exact .of_hold (.inr ⟨rfl, h2, h1⟩) h
    · exact .of_complete hh ⟨not_not.mp h2, rfl, rfl, rfl⟩ h
  | unlock =>
    simp only [exec, execUnlock] at h
    split_ifs at h with hh h1
    · exact .of_hold (.inl hh) h
    · exact .of_raise hh h
    · exact .of_complete hh ⟨not_not.mp h1, rfl, rfl, rfl⟩ h

/-! ## Where each command completes -/

section completes
variable {s : State} (hh : s.block.halted = false)
include hh

theorem execAttrNew_completes (fg bg : BitVec 4) :
    execAttrNew fg bg s = s.complete (.okByte (attrByte fg bg)) s.block := by
  simp [execAttrNew, hh]

theorem execAttrSetFg_completes (a : Byte) (c : BitVec 4) :
    execAttrSetFg a c s = s.complete (.okByte (attrWithFg a c)) s.block := by
  simp [execAttrSetFg, hh]

theorem execAttrSetBg_completes (a : Byte) (c : BitVec 4) :
    execAttrSetBg a c s = s.complete (.okByte (attrWithBg a c)) s.block := by
  simp [execAttrSetBg, hh]

theorem execLoadPalette_completes {payload : List Byte}
    (hl : payload.length = Config.paletteBytes) (ho : s.block.lockOwner = some s.issuer)
    (hr : paletteOutOfRange payload = false) :
    execLoadPalette payload s = s.complete .ok (s.block.loadLut s.issuer payload) := by
  simp [execLoadPalette, hh, hl, ho, hr]

theorem execSetPlaneMask_completes (ho : s.block.lockOwner = some s.issuer) (m : BitVec 4) :
    execSetPlaneMask m s = s.complete .ok (s.block.writePlaneMask s.issuer m) := by
  simp [execSetPlaneMask, hh, ho]

theorem execSetWriteEnable_completes (ho : s.block.lockOwner = some s.issuer) (m : BitVec 4) :
    execSetWriteEnable m s = s.complete .ok (s.block.writeWriteEnable s.issuer m) := by
  simp [execSetWriteEnable, hh, ho]

theorem execSetReadPlane_completes (ho : s.block.lockOwner = some s.issuer) (p : BitVec 2) :
    execSetReadPlane p s = s.complete .ok (s.block.writeReadPlane s.issuer p) := by
  simp [execSetReadPlane, hh, ho]

theorem execFbRead_completes (ho : s.block.lockOwner = some s.issuer)
    (hm : s.block.mode = .gfx640) {off : BitVec 17} (hr : off.toNat < Config.windowBytes)
    {p : BitVec 2} (hp : s.block.readPlane = .set p) :
    execFbRead off s = s.drawRead.2.complete
      (.okByte (TByte.resolve (s.block.planeByte (planeIndex p) off.toNat)
        (Config.readDraw s.draws.reads)))
      (s.block.logEvent
        (.rd s.issuer p off.toNat (s.block.planeByte (planeIndex p) off.toNat))) := by
  have ho' : offOutOfWindow off.toNat = false := by simpa [offOutOfWindow] using hr
  simp [execFbRead, hh, ho, hm, ho', hp, memRead_eq hp, State.drawRead]

theorem execFbWrite_completes (ho : s.block.lockOwner = some s.issuer)
    (hm : s.block.mode = .gfx640) {off : BitVec 17} (hr : off.toNat < Config.windowBytes)
    {pm we : BitVec 4} (hp : s.block.planeMask = .set pm) (hw : s.block.writeEnable = .set we)
    (data : Byte) :
    execFbWrite off data s =
      s.complete .ok (s.block.memWrite s.issuer off.toNat (TByte.ofByte data)) := by
  have ho' : offOutOfWindow off.toNat = false := by simpa [offOutOfWindow] using hr
  simp [execFbWrite, hh, ho, hm, ho', hp, hw]

theorem execLock_completes (ho : s.block.lockOwner = none) :
    execLock s = s.complete .ok (s.block.acquire s.issuer) := by
  simp [execLock, hh, ho]

theorem execUnlock_completes (ho : s.block.lockOwner = some s.issuer) :
    execUnlock s = s.complete .ok (s.block.release s.issuer) := by
  simp [execUnlock, hh, ho]

theorem execSetMode_completes (ho : s.block.lockOwner = none) :
    execSetMode s =
      { s with draws := { s.draws with modeSwitches := s.draws.modeSwitches + 1 } }.complete .ok
        (s.block.setMode s.issuer s.draws.modeSwitches) := by
  simp [execSetMode, hh, ho]

theorem execSetPixel_completes (ho : s.block.lockOwner = none) (hm : s.block.mode = .gfx640)
    {x : BitVec 10} {y : BitVec 9} (hx : x.toNat < Config.width) (hy : y.toNat < Config.height)
    (color : BitVec 4) :
    execSetPixel x y color s =
      s.complete .ok (s.block.setPixel s.issuer x.toNat y.toNat color) := by
  simp [execSetPixel, hh, ho, hm, coordOutOfRange_eq_false hx hy]

theorem execClearScreen_completes (ho : s.block.lockOwner = none)
    (hm : s.block.mode = .gfx640) :
    execClearScreen s = s.complete .ok (s.block.clearScreen s.issuer) := by
  simp [execClearScreen, hh, ho, hm]

end completes

end Sys2Proof.Machine
end

