-- ==== Sys2Proof/Laws/PerInstr.lean ====
section
/-! SUPPORT. A statement about every instruction as syntax, one lemma per constructor: its word matches
its own row of the opcode table. -/

namespace Sys2Proof.Laws.TableRow

/-- The instruction's word matches the mask of its row of the opcode table (`30_encoding.md` R67,
R79). -/
def Statement (i : Instr) : Prop :=
  ∃ row ∈ opcodeTable, row.opcode = i.opcode ∧ encodeWord i &&& row.mask = row.pattern

/-- A word with an instruction's opcode and no reserved bit matches the instruction's row. -/
theorem of_parts {i : Instr} (ho : opcodeOf (BitVec.ofNat 4 i.opcode.number) = some i.opcode)
    (hr : encodeWord i &&& i.opcode.reserved = 0#32) : Statement i := by
  have hf : field (encodeWord i) 31 28 = BitVec.ofNat 4 i.opcode.number := by
    apply BitVec.eq_of_toNat_eq
    rw [field_toNat, encodeWord_toNat]
    have := operandsNumber_lt i
    simp
    omega
  have rows : ∀ op : Opcode, ∃ row ∈ opcodeTable, row.opcode = op := by
    intro op
    cases op <;> decide
  obtain ⟨row, hm, he⟩ := rows i.opcode
  refine ⟨row, hm, he, (row_match hm _).mpr ⟨?_, ?_⟩⟩
  · rw [hf, ho, he]
  · rw [he]
    exact hr

theorem setMode : Statement .setMode := of_parts rfl (by decide)

theorem clearScreen : Statement .clearScreen := of_parts rfl (by decide)

theorem setPixel (x : BitVec 10) (y : BitVec 9) (color : BitVec 4) :
    Statement (.setPixel x y color) :=
  of_parts rfl ((reserved_pix _).mpr (by
    rw [encodeWord_toNat]; simp only [Instr.opcode, Opcode.number, Instr.operandsNumber]; omega))

theorem setPlaneMask (mask : BitVec 4) : Statement (.setPlaneMask mask) :=
  of_parts rfl ((reserved_mask _).mpr (by
    rw [encodeWord_toNat]; simp only [Instr.opcode, Opcode.number, Instr.operandsNumber]; omega))

theorem setWriteEnable (mask : BitVec 4) : Statement (.setWriteEnable mask) :=
  of_parts rfl ((reserved_mask _).mpr (by
    rw [encodeWord_toNat]; simp only [Instr.opcode, Opcode.number, Instr.operandsNumber]; omega))

theorem setReadPlane (plane : BitVec 2) : Statement (.setReadPlane plane) :=
  of_parts rfl ((reserved_plane _).mpr (by
    rw [encodeWord_toNat]; simp only [Instr.opcode, Opcode.number, Instr.operandsNumber]; omega))

theorem loadPalette (payload : List Byte) : Statement (.loadPalette payload) :=
  of_parts rfl ((reserved_none _).mpr (by
    rw [encodeWord_toNat]; simp only [Instr.opcode, Opcode.number, Instr.operandsNumber]; omega))

theorem fbRead (off : BitVec 17) : Statement (.fbRead off) :=
  of_parts rfl ((reserved_rd _).mpr (by
    rw [encodeWord_toNat]; simp only [Instr.opcode, Opcode.number, Instr.operandsNumber]; omega))

theorem fbWrite (off : BitVec 17) (data : Byte) : Statement (.fbWrite off data) :=
  of_parts rfl ((reserved_wr _).mpr (by
    rw [encodeWord_toNat]; simp only [Instr.opcode, Opcode.number, Instr.operandsNumber]; omega))

theorem attrNew (fg bg : BitVec 4) : Statement (.attrNew fg bg) :=
  of_parts rfl ((reserved_attr _).mpr (by
    rw [encodeWord_toNat]; simp only [Instr.opcode, Opcode.number, Instr.operandsNumber]; omega))

theorem attrSetFg (attr : Byte) (color : BitVec 4) : Statement (.attrSetFg attr color) :=
  of_parts rfl ((reserved_nib _).mpr (by
    rw [encodeWord_toNat]; simp only [Instr.opcode, Opcode.number, Instr.operandsNumber]; omega))

theorem attrSetBg (attr : Byte) (color : BitVec 4) : Statement (.attrSetBg attr color) :=
  of_parts rfl ((reserved_nib _).mpr (by
    rw [encodeWord_toNat]; simp only [Instr.opcode, Opcode.number, Instr.operandsNumber]; omega))

theorem lock : Statement .lock := of_parts rfl (by decide)

theorem unlock : Statement .unlock := of_parts rfl (by decide)

end Sys2Proof.Laws.TableRow
end

