-- ==== Sys2Proof/Laws/Planar.lean ====
section
/-! SUPPORT. The bodies of the composite commands as one update each, and what every byte reads as
after them. -/

namespace Sys2Proof.Machine

/-! ## SET_MODE -/

/-- The body of SET_MODE (`43_planar_writer.md` R130, R131). -/
theorem setMode_eq (c : CallerId) (n : Nat) (b : Block) :
    b.setMode c n = { b with
      mode := .gfx640, planeMask := .unset, writeEnable := .unset, readPlane := .unset
      lockOwner := none
      planes := Vector.replicate 4 []
      lut := paletteLut Config.defaultPalette
      log := b.log ++ [.acquire c, .mode c, .pal c, .release c] } := by
  simp [Block.setMode, Block.acquire, Block.modeSwitch, Block.loadLut, Block.release,
    Block.logEvent]

/-! ## SET_PIXEL -/

/-- Plane `q` as a plane index. -/
def planeOf (q : Fin 4) : BitVec 2 := BitVec.ofFin q

@[simp] theorem planeIndex_planeOf (q : Fin 4) : planeIndex (planeOf q) = q := rfl
@[simp] theorem planeOf_planeIndex (p : BitVec 2) : planeOf (planeIndex p) = p := rfl
@[simp] theorem planeOf_toNat (q : Fin 4) : (planeOf q).toNat = q := rfl

/-- The block before SET_PIXEL's first round. -/
def pixelStart (c : CallerId) (b : Block) : Block :=
  (b.acquire c).writeWriteEnable c 0b0000#4

/-- A round keeps everything but READ_PLANE, PLANE_MASK, the planes and the log. -/
theorem pixelRound_fields {b : Block} (hw : b.writeEnable = .set 0#4) (c : CallerId) (off : Nat)
    (m : Byte) (color : BitVec 4) (p : BitVec 2) :
    ∃ planes, b.pixelRound c off m color p = { b with
      readPlane := .set p, planeMask := .set (planeSelect p), planes := planes
      log := b.log ++ roundEvents c off m color p (b.planeByte (planeIndex p) off) } :=
  ⟨_, pixelRound_eq hw c off m color p⟩

/-- The four rounds of SET_PIXEL. -/
def fourRounds (c : CallerId) (off : Nat) (m : Byte) (color : BitVec 4) (b : Block) : Block :=
  (((b.pixelRound c off m color 0#2).pixelRound c off m color 1#2).pixelRound c off m color
    2#2).pixelRound c off m color 3#2

/-- The four rounds, in plane order, as one update (`43_planar_writer.md` R132, R137). -/
theorem fourRounds_eq {b : Block} (hw : b.writeEnable = .set 0#4) (c : CallerId) (off : Nat)
    (m : Byte) (color : BitVec 4) :
    ∃ planes, fourRounds c off m color b = { b with
        readPlane := .set 3#2, planeMask := .set 0b1000#4, planes := planes
        log := b.log ++ [0#2, 1#2, 2#2, 3#2].flatMap fun p =>
          roundEvents c off m color p (b.planeByte (planeIndex p) off) } ∧
      ∀ (q : Fin 4) (a : Nat), planes[q].read a =
        if a = off then mergedByte (b.planeByte q off) m color (planeOf q) else b.planeByte q a := by
  have i10 : planeIndex 1#2 ≠ planeIndex 0#2 := by decide
  have i20 : planeIndex 2#2 ≠ planeIndex 0#2 := by decide
  have i21 : planeIndex 2#2 ≠ planeIndex 1#2 := by decide
  have i30 : planeIndex 3#2 ≠ planeIndex 0#2 := by decide
  have i31 : planeIndex 3#2 ≠ planeIndex 1#2 := by decide
  have i32 : planeIndex 3#2 ≠ planeIndex 2#2 := by decide
  have s3 : planeSelect 3#2 = 0b1000#4 := by decide
  have r0 := pixelRound_planeByte hw c off m color 0#2
  obtain ⟨m0, h0⟩ := pixelRound_fields hw c off m color 0#2
  unfold fourRounds
  generalize b.pixelRound c off m color 0#2 = b1 at h0 r0 ⊢
  have w1 : b1.writeEnable = .set 0#4 := by rw [h0]; exact hw
  have r1 := pixelRound_planeByte w1 c off m color 1#2
  obtain ⟨m1, h1⟩ := pixelRound_fields w1 c off m color 1#2
  generalize b1.pixelRound c off m color 1#2 = b2 at h1 r1 ⊢
  have w2 : b2.writeEnable = .set 0#4 := by rw [h1]; exact w1
  have r2 := pixelRound_planeByte w2 c off m color 2#2
  obtain ⟨m2, h2⟩ := pixelRound_fields w2 c off m color 2#2
  generalize b2.pixelRound c off m color 2#2 = b3 at h2 r2 ⊢
  have w3 : b3.writeEnable = .set 0#4 := by rw [h2]; exact w2
  have r3 := pixelRound_planeByte w3 c off m color 3#2
  obtain ⟨m3, h3⟩ := pixelRound_fields w3 c off m color 3#2
  generalize b3.pixelRound c off m color 3#2 = b4 at h3 r3 ⊢
  have e1 : b1.planeByte (planeIndex 1#2) off = b.planeByte (planeIndex 1#2) off := by
    rw [r0]; simp [i10]
  have e2 : b2.planeByte (planeIndex 2#2) off = b.planeByte (planeIndex 2#2) off := by
    rw [r1, r0]; simp [i20, i21]
  have e3 : b3.planeByte (planeIndex 3#2) off = b.planeByte (planeIndex 3#2) off := by
    rw [r2, r1, r0]; simp [i30, i31, i32]
  rw [e1] at h1
  rw [e2] at h2
  rw [e3, s3] at h3
  refine ⟨m3, ?_, fun q a => ?_⟩
  · subst h3 h2 h1 h0
    simp only [List.flatMap_cons, List.flatMap_nil, List.append_assoc, List.append_nil]
  · have hm : m3 = b4.planes := by rw [h3]
    subst hm
    show b4.planeByte q a = _
    rw [r3, r2, r2, r1, r1, r0, r0]
    have hq : ∀ q : Fin 4, q = planeIndex 0#2 ∨ q = planeIndex 1#2 ∨ q = planeIndex 2#2 ∨
        q = planeIndex 3#2 := by decide
    rcases hq q with rfl | rfl | rfl | rfl <;> by_cases ha : a = off <;>
      simp [ha, i10, i20, i21, i30, i31, i32, i10.symm, i20.symm, i21.symm, i30.symm, i31.symm,
        i32.symm]

/-- The body of SET_PIXEL as one update (`43_planar_writer.md` R132). -/
theorem setPixel_eq (c : CallerId) (x y : Nat) (color : BitVec 4) (b : Block) :
    ∃ planes, b.setPixel c x y color = { b with
        writeEnable := .set 0b0000#4, readPlane := .set 3#2, planeMask := .set 0b1000#4
        lockOwner := none, planes := planes
        log := b.log ++ ([.acquire c, .regWrite c (.writeEnable 0b0000#4)] ++
          ([0#2, 1#2, 2#2, 3#2].flatMap (fun p =>
            roundEvents c (pixelOffset x y) (pixelMask x) color p
              (b.planeByte (planeIndex p) (pixelOffset x y))) ++ [.release c])) } ∧
      ∀ (q : Fin 4) (a : Nat), planes[q].read a =
        if a = pixelOffset x y then
          mergedByte (b.planeByte q (pixelOffset x y)) (pixelMask x) color (planeOf q)
        else b.planeByte q a := by
  obtain ⟨planes, he, hr⟩ := fourRounds_eq (b := pixelStart c b) rfl c (pixelOffset x y)
    (pixelMask x) color
  refine ⟨planes, ?_, hr⟩
  show (fourRounds c (pixelOffset x y) (pixelMask x) color (pixelStart c b)).release c = _
  rw [he]
  simp only [pixelStart, Block.acquire, Block.writeWriteEnable, Block.release, Block.logEvent,
    List.append_assoc, List.cons_append, List.nil_append]
  rfl

/-! ## CLEAR_SCREEN -/

/-- The block before CLEAR_SCREEN's first write. -/
def clearStart (c : CallerId) (b : Block) : Block :=
  ((b.acquire c).writePlaneMask c 0b1111#4).writeWriteEnable c 0b0000#4

theorem clearScreen_body (c : CallerId) (b : Block) :
    b.clearScreen c = ((clearStart c b).clearSweep c Config.windowBytes).release c := by
  unfold Block.clearScreen
  rfl

/-- The body of CLEAR_SCREEN as one update (`43_planar_writer.md` R134, R135). -/
theorem clearScreen_eq (c : CallerId) (b : Block) :
    ∃ planes, b.clearScreen c = { b with
        planeMask := .set 0b1111#4, writeEnable := .set 0b0000#4
        lockOwner := none, planes := planes
        log := b.log ++ ([.acquire c, .regWrite c (.planeMask 0b1111#4),
          .regWrite c (.writeEnable 0b0000#4)] ++
          ((List.range Config.windowBytes).map (fun off =>
            .wr c off (TByte.ofByte 0x00#8) 0b1111#4 0b0000#4) ++ [.release c])) } ∧
      ∀ (q : Fin 4) (a : Nat), planes[q].read a =
        if a < Config.windowBytes then TByte.ofByte 0x00#8 else b.planeByte q a := by
  obtain ⟨planes, he⟩ := clearSweep_eq (b := clearStart c b) rfl rfl c Config.windowBytes
  have hr := clearSweep_planeByte (b := clearStart c b) rfl rfl c Config.windowBytes
  rw [he] at hr
  refine ⟨planes, ?_, hr⟩
  rw [clearScreen_body, he]
  simp only [clearStart, Block.acquire, Block.writePlaneMask, Block.writeWriteEnable,
    Block.release, Block.logEvent, List.append_assoc, List.cons_append, List.nil_append]

/-! ## Canonical form -/

theorem release_planesWf {b : Block} (h : b.planesWf) (c : CallerId) : (b.release c).planesWf := h

theorem setMode_planesWf (c : CallerId) (n : Nat) (b : Block) : (b.setMode c n).planesWf := by
  intro p
  rw [setMode_eq]
  show Memory.wf (Vector.replicate 4 [])[p]
  rw [Fin.getElem_fin, Vector.getElem_replicate]
  exact Memory.nil_wf

theorem pixelRound_planesWf {b : Block} (h : b.planesWf) {off : Nat} (ho : off < Config.windowBytes)
    (c : CallerId) (m : Byte) (color : BitVec 4) (p : BitVec 2) :
    (b.pixelRound c off m color p).planesWf := by
  have hs : (((b.writeReadPlane c p).writePlaneMask c (planeSelect p)).logEvent
      (.rd c p off (b.planeByte (planeIndex p) off))).planesWf := h
  simp only [Block.pixelRound,
    memRead_eq (b := (b.writeReadPlane c p).writePlaneMask c (planeSelect p)) (p := p) rfl]
  exact memWrite_planesWf hs ho _ _

theorem fourRounds_planesWf {b : Block} (h : b.planesWf) {off : Nat} (ho : off < Config.windowBytes)
    (c : CallerId) (m : Byte) (color : BitVec 4) : (fourRounds c off m color b).planesWf := by
  unfold fourRounds
  iterate 4 refine pixelRound_planesWf ?_ ho _ _ _ _
  exact h

theorem setPixel_planesWf {b : Block} (h : b.planesWf) {x y : Nat} (hx : x < Config.width)
    (hy : y < Config.height) (c : CallerId) (color : BitVec 4) :
    (b.setPixel c x y color).planesWf := by
  have ho : pixelOffset x y < Config.windowBytes :=
    lt_of_lt_of_le (pixelOffset_lt hx hy) (by decide)
  have hs : (pixelStart c b).planesWf := h
  exact release_planesWf (fourRounds_planesWf hs ho c (pixelMask x) color) c

theorem clearScreen_planesWf {b : Block} (h : b.planesWf) (c : CallerId) :
    (b.clearScreen c).planesWf := by
  rw [clearScreen_body]
  exact release_planesWf (clearSweep_planesWf c (b := clearStart c b) h (Nat.le_refl _)) c

end Sys2Proof.Machine
end

