-- ==== Sys2Proof/Laws/Step.lean ====
section
/-! SUPPORT. Which commands can be issued, are outstanding and are granted, and, once for the whole
machine, all a step can do. -/

namespace Sys2Proof.Machine

/-! ## The port -/

/-- A key that is not listed reads as the unlisted value. -/
theorem lookup_of_not_mem {α : Type} {d : α} {m : List (Nat × α)} {a : Nat}
    (h : ∀ e ∈ m, e.1 ≠ a) : lookup d m a = d := by
  induction m with
  | nil => rfl
  | cons e m ih =>
    rw [lookup, if_neg (h e List.mem_cons_self).symm]
    exact ih fun e he => h e (List.mem_cons_of_mem _ he)

/-- A caller that is not listed is idle. -/
theorem caller_of_not_mem {s : State} {c : CallerId} (h : ∀ e ∈ s.callers, e.1 ≠ c) :
    s.caller c = Caller.idle := lookup_of_not_mem h

/-- A listed caller is the one its entry holds. -/
theorem caller_of_mem {s : State} (hs : s.callers.Pairwise (fun e f => e.1 < f.1))
    {e : Nat × Caller} (he : e ∈ s.callers) : s.caller e.1 = e.2 := lookup_of_mem hs he

/-- A caller that is not idle is listed. -/
theorem mem_callers_of_ne_idle {s : State} (hs : s.callers.Pairwise (fun e f => e.1 < f.1))
    {c : CallerId} (h : s.caller c ≠ Caller.idle) : (c, s.caller c) ∈ s.callers := by
  by_cases hl : ∃ e ∈ s.callers, e.1 = c
  · obtain ⟨e, he, rfl⟩ := hl
    rw [caller_of_mem hs he]
    exact he
  · exact absurd (caller_of_not_mem fun e he h1 => hl ⟨e, he, h1⟩) h

/-- A caller has `cmd` outstanding exactly when it has issued it and it is at its index. -/
theorem Caller.outstanding_eq_some {k : Caller} {cmd : Command} :
    k.outstanding = some cmd ↔ k.issued = true ∧ k.sequence[k.index]? = some cmd := by
  unfold Caller.outstanding
  cases k.issued <;> simp

/-- A caller is ready exactly when it has a next command and none outstanding. -/
theorem Caller.ready_iff {k : Caller} :
    k.ready = true ↔ k.issued = false ∧ k.index < k.sequence.length := by
  simp [Caller.ready]

@[simp] theorem Caller.outstanding_restarted (k : Caller) : k.restarted.outstanding = none := rfl

/-- A transaction is outstanding exactly when it is its caller's outstanding command. -/
theorem mem_outstanding_iff {s : State} (hs : s.callers.Pairwise (fun e f => e.1 < f.1))
    {t : Transaction} : t ∈ s.outstanding ↔ (s.caller t.caller).outstanding = some t.command := by
  simp only [State.outstanding, List.mem_filterMap, Option.map_eq_some_iff]
  constructor
  · rintro ⟨e, he, c, hc, rfl⟩
    rw [caller_of_mem hs he]
    exact hc
  · intro h
    exact ⟨_, mem_callers_of_ne_idle hs fun h1 => by simp [h1, Caller.idle, Caller.outstanding] at h,
      t.command, h, rfl⟩

/-- A caller may issue exactly when it is ready. -/
theorem mem_ready_iff {s : State} (hs : s.callers.Pairwise (fun e f => e.1 < f.1)) {c : CallerId} :
    c ∈ s.ready ↔ (s.caller c).ready = true := by
  simp only [State.ready, List.mem_map, List.mem_filter]
  constructor
  · rintro ⟨e, ⟨he, hr⟩, rfl⟩
    rw [caller_of_mem hs he]
    exact hr
  · intro h
    exact ⟨_, ⟨mem_callers_of_ne_idle hs fun h1 => by simp [h1, Caller.idle, Caller.ready] at h, h⟩,
      rfl⟩

/-- The turn taken is one of those that can be. -/
theorem turn_mem {s : State} {u : Turn} (h : s.turn = some u) : u ∈ s.turns := by
  unfold State.turn at h
  split at h
  · simp at h
  · next he => simp_all
  · next he => rw [he]; exact List.mem_of_getElem? h

theorem turn_issue {s : State} {c : CallerId} (h : s.turn = some (.issue c)) : c ∈ s.ready := by
  simpa [State.turns] using turn_mem h

theorem turn_execute {s : State} {t : Transaction} (h : s.turn = some (.execute t)) :
    t ∈ s.enabled := by
  simpa [State.turns] using turn_mem h

/-- The turn, when there is one, is the one the free number of this turn picks. -/
theorem turn_eq (s : State) :
    s.turn = s.turns[Config.arbiter s.draws.choices % s.turns.length]? := by
  unfold State.turn
  split
  · next h => simp [h]
  · next h => simp [h, Nat.mod_one]
  · next h => rw [h]

theorem turn_eq_none_iff {s : State} : s.turn = none ↔ s.ready = [] ∧ s.enabled = [] := by
  have hn : s.turns = [] ↔ s.ready = [] ∧ s.enabled = [] := by simp [State.turns]
  rw [turn_eq, List.getElem?_eq_none_iff, ← hn]
  constructor
  · intro h
    by_contra hne
    exact absurd (Nat.mod_lt _ (List.length_pos_iff.mpr hne)) (Nat.not_lt.mpr h)
  · intro h
    simp [h]

theorem enabled_outstanding {s : State} {t : Transaction} (h : t ∈ s.enabled) :
    t ∈ s.outstanding := (List.mem_filter.mp h).1

/-- A halted block executes nothing (`60_exceptions.md` R151). -/
theorem enabled_not_halted {s : State} {t : Transaction} (h : t ∈ s.enabled) :
    s.block.halted = false := by
  have := (List.mem_filter.mp h).2
  simp only [Block.enables, Bool.and_eq_true, Bool.not_eq_true'] at this
  exact this.1

theorem enabled_eq_nil_of_halted {s : State} (h : s.block.halted = true) : s.enabled = [] :=
  List.eq_nil_iff_forall_not_mem.mpr fun _ ht => by
    simp [enabled_not_halted ht] at h

/-! ## Issuing -/

@[simp] theorem caller_issue (s : State) (c d : CallerId) :
    (s.issue c).caller d = if d = c then { s.caller c with issued := true } else s.caller d :=
  caller_setCaller s.countTurn c d _

/-! ## Reset -/

/-- No command is outstanding after a reset (`70_reset_and_hazards.md` R165, `60_exceptions.md`
R158). -/
@[simp] theorem outstanding_takeReset (s : State) : s.takeReset.outstanding = [] := by
  simp only [State.outstanding, State.takeReset_callers, List.filterMap_eq_nil_iff]
  intro e he
  obtain ⟨k, -, hk, -⟩ := mem_restartedCallers he
  simp [hk]

/-! ## The step -/

/-- What any step can do: reset, wait, let a caller issue its command, raise ILLEGAL_COMMAND, or end as
the granted command ends. -/
theorem step_inv {s t : State} (h : step s = .next t) :
    (s.resetInput = true ∧ t = s.takeReset) ∨
    (s.resetInput = false ∧ s.turn = none ∧ t = s) ∨
    (s.resetInput = false ∧ ∃ c, s.turn = some (.issue c) ∧ t = s.issue c) ∨
    (s.resetInput = false ∧ ∃ tr, s.turn = some (.execute tr) ∧
      (((∃ e, decode tr.command.word tr.command.payload = .error e) ∧
          t = (s.grant tr).raised .illegalCommand) ∨
        ∃ i, decode tr.command.word tr.command.payload = .ok i ∧ Ends i (s.grant tr) t)) := by
  unfold step State.fetch at h
  by_cases hr : s.resetInput = true
  · simp only [hr, if_true] at h
    cases h
    exact .inl ⟨hr, rfl⟩
  · simp only [hr, Bool.false_eq_true, if_false] at h
    have hr : s.resetInput = false := by simpa using hr
    rcases hg : s.turn with _ | ⟨c⟩ | ⟨tr⟩
    · simp only [hg] at h
      cases h
      exact .inr (.inl ⟨hr, rfl, rfl⟩)
    · simp only [hg] at h
      cases h
      exact .inr (.inr (.inl ⟨hr, c, rfl, rfl⟩))
    · rcases hd : decode tr.command.word tr.command.payload with e | i
      · simp only [hg, hd] at h
        cases h
        exact .inr (.inr (.inr ⟨hr, tr, rfl, .inl ⟨⟨e, hd⟩, rfl⟩⟩))
      · simp only [hg, hd] at h
        exact .inr (.inr (.inr ⟨hr, tr, rfl, .inr ⟨i, hd, exec_inv h⟩⟩))

/-- A step with nothing to issue and nothing enabled waits. -/
theorem step_waits {s : State} (hr : s.resetInput = false) (h1 : s.ready = []) (h2 : s.enabled = []) :
    step s = .next s := by
  have : s.turn = none := turn_eq_none_iff.mpr ⟨h1, h2⟩
  simp [step, State.fetch, hr, this]

end Sys2Proof.Machine
end

