-- ==== Sys2Proof/Tests/Slice0.lean ====
section
/-! SUPPORT. Tests against the spec's own vectors (`95_test_vectors.md`, named by their ids), and for
every statement with hypotheses a state that meets them. Words are written out from `30_encoding.md`
R66 and R67. -/

namespace Sys2Proof.Tests

open Sys2Proof.Machine

/-! ## WellFormed: the ill-formed term is refused -/

theorem test_wellFormed_palette : (Instr.loadPalette (List.replicate 768 0#8)).wellFormed = true := by
  decide +kernel

theorem test_illFormed_palette_short :
    (Instr.loadPalette (List.replicate 767 0#8)).wellFormed = false := by decide +kernel

theorem test_illFormed_palette_empty : (Instr.loadPalette []).wellFormed = false := by decide

/-! ## Decoding: words written out bit by bit, field by field -/

/-- E1, E2: opcode, then 28 zeros. -/
theorem test_decode_none : decode 0b0001_0000000000000000000000000000#32 [] = .ok .setMode ∧
    decode 0b0010_0000000000000000000000000000#32 [] = .ok .clearScreen := by decide

/-- E3 to E5: opcode, x (10), y (9), five zeros, colour (4). -/
theorem test_decode_pix :
    decode 0b0011_0000000000_000000000_00000_1111#32 [] = .ok (.setPixel 0 0 15) ∧
    decode 0b0011_1001111111_111011111_00000_0000#32 [] = .ok (.setPixel 639 479 0) ∧
    decode 0x3FFFFE0F#32 [] = .ok (.setPixel 1023 511 15) := by decide

/-- E6, E7: opcode, 24 zeros, mask (4). -/
theorem test_decode_mask :
    decode 0b0100_000000000000000000000000_0100#32 [] = .ok (.setPlaneMask 0b0100) ∧
    decode 0b0101_000000000000000000000000_0000#32 [] = .ok (.setWriteEnable 0) := by decide

/-- E8: opcode, 26 zeros, plane (2). -/
theorem test_decode_plane :
    decode 0b0110_00000000000000000000000000_11#32 [] = .ok (.setReadPlane 3) := by decide

/-- E9: opcode, 28 zeros, with 768 bytes. -/
theorem test_decode_palette : decode 0b0111_0000000000000000000000000000#32 (List.replicate 768 0#8) =
    .ok (.loadPalette (List.replicate 768 0#8)) := by decide +kernel

/-- E10: opcode, eleven zeros, offset (17). -/
theorem test_decode_rd :
    decode 0b1000_00000000000_10010101111111111#32 [] = .ok (.fbRead 76799) := by decide

/-- E11: opcode, three zeros, offset (17), data (8). -/
theorem test_decode_wr :
    decode 0b1001_000_10010101111111111_00010010#32 [] = .ok (.fbWrite 76799 0x12) := by decide

/-- E12: opcode, 20 zeros, background (4), foreground (4). -/
theorem test_decode_attr :
    decode 0b1010_00000000000000000000_1110_0001#32 [] = .ok (.attrNew 0x1 0xE) := by decide

/-- E13, E14: opcode, twelve zeros, attribute (8), four zeros, colour (4). -/
theorem test_decode_nib :
    decode 0b1011_000000000000_11100001_0000_0100#32 [] = .ok (.attrSetFg 0xE1 0x4) ∧
    decode 0b1100_000000000000_11100001_0000_0010#32 [] = .ok (.attrSetBg 0xE1 0x2) := by decide

/-- E15. -/
theorem test_decode_lock : decode 0xD0000000#32 [] = .ok .lock ∧
    decode 0xE0000000#32 [] = .ok .unlock := by decide

/-- E16, E17. -/
theorem test_illegal_opcode : decode 0x00000000#32 [] = .error .reservedOpcode ∧
    decode 0xF0000000#32 [] = .error .reservedOpcode := by decide

/-- E18 to E25. -/
theorem test_illegal_bits : decode 0x10000001#32 [] = .error .reservedBits ∧
    decode 0x30000010#32 [] = .error .reservedBits ∧
    decode 0x40000010#32 [] = .error .reservedBits ∧
    decode 0x60000004#32 [] = .error .reservedBits ∧
    decode 0x80020000#32 [] = .error .reservedBits ∧
    decode 0x92000000#32 [] = .error .reservedBits ∧
    decode 0xA0000100#32 [] = .error .reservedBits ∧
    decode 0xB0000010#32 [] = .error .reservedBits := by decide

/-- E26, E27. -/
theorem test_illegal_payload :
    decode 0x70000000#32 (List.replicate 767 0#8) = .error .payloadLength ∧
    decode 0x10000000#32 [0#8] = .error .payloadLength := by decide +kernel

/-- The first byte of a byte transport holds bits 7:0 (`20_memory.md` R50). -/
theorem test_decodeBytes : decodeBytes [0x12#8, 0xFF#8, 0x2B#8, 0x91#8] = .ok (.fbWrite 76799 0x12) ∧
    decodeTableWord 32 0x912BFF12 = some (.fbWrite 76799 0x12) := by decide

/-- A LOAD_PALETTE row of 32 bits stands for a payload of zeros. -/
theorem test_decodeTableWord_palette : decodeTableWord 32 0x70000000 =
    some (.loadPalette (List.replicate 768 0#8)) := by decide +kernel

/-! ## Small states -/

/-- A block in GFX640 with every plane bit `?`, its registers as SET_MODE and CLEAR_SCREEN leave them,
and a black palette. -/
def gfx : Block :=
  { Block.reset with
    mode := .gfx640, planeMask := .set 0b1111#4, writeEnable := .set 0b0000#4
    lut := Vector.replicate 256 ⟨.set 0#6, .set 0#6, .set 0#6⟩ }

/-- `gfx` with the byte `v` at offset `off` of every plane. -/
def gfxWith (off : Nat) (v : Byte) : Block :=
  { gfx with planes := Vector.replicate 4 [(off, TByte.ofByte v)] }

/-- `b` with the lock held by caller 0. -/
def owned (b : Block) : Block := { b with lockOwner := some 0 }

/-- The machine with block `b` and the command word `w` of caller `c` on the port. -/
def at_ (b : Block) (c : CallerId) (w : Word) : State :=
  { State.reset with block := b, port := ⟨c, ⟨w, []⟩⟩ }

/-- The machine with block `b` and one command for each listed caller, all issued or none. -/
def withCommands (issued : Bool) (b : Block) (cs : List (Nat × Command)) : State :=
  { State.reset with block := b, callers := cs.map fun e => (e.1, ⟨[e.2], 0, issued, []⟩) }

/-- The machine with block `b` and one outstanding command for each listed caller. -/
abbrev waiting : Block → List (Nat × Command) → State := withCommands true

/-- The machine with block `b` and, for each listed caller, one command that it has not issued yet. -/
abbrev toIssue : Block → List (Nat × Command) → State := withCommands false

/-- The state a result leaves; reset where there is none. -/
def left : Result → State
  | .next t => t
  | .fault _ => State.reset
  | .refused _ => State.reset

/-- The known value of a byte of plane `p`. -/
def byteIs (t : State) (p : Fin 4) (off : Nat) (v : Byte) : Prop :=
  t.block.planeByte p off = TByte.ofByte v

/-- The responses caller `c` has had in what a result leaves. -/
def responses (r : Result) (c : CallerId) : List Response := ((left r).caller c).responses

/-! ## color_lut -/

/-- K2. -/
theorem test_attrNew : responses (exec (.attrNew 0x1 0xE) (at_ Block.reset 3 0xA00000E1#32)) 3 =
    [.okByte 0xE1#8] := by decide

/-- K5. -/
theorem test_attrSetFg : responses (exec (.attrSetFg 0xE1 0x4) (at_ Block.reset 3 0xB000E104#32)) 3 =
    [.okByte 0xE4#8] := by decide

/-- K8. -/
theorem test_attrSetBg : responses (exec (.attrSetBg 0xE4 0x2) (at_ Block.reset 3 0xC000E402#32)) 3 =
    [.okByte 0x24#8] := by decide

/-- K11: the first entry is red, the rest black. -/
theorem test_loadPalette : (left (exec (.loadPalette (63#8 :: List.replicate 767 0#8))
      (at_ (owned gfx) 0 0x70000000#32))).block.lut[0] = ⟨.set 63#6, .set 0#6, .set 0#6⟩ ∧
    (left (exec (.loadPalette (63#8 :: List.replicate 767 0#8))
      (at_ (owned gfx) 0 0x70000000#32))).block.lut[255] = ⟨.set 0#6, .set 0#6, .set 0#6⟩ := by
  decide +kernel

/-- K12: byte 767 is 64. -/
theorem test_loadPalette_range :
    (left (exec (.loadPalette (List.replicate 767 0#8 ++ [64#8]))
      (at_ (owned gfx) 0 0x70000000#32))).block.fault = 8#4 := by decide +kernel

/-! ## Register layer -/

/-- G13. -/
theorem test_setPlaneMask : (left (exec (.setPlaneMask 0b0001)
    (at_ (owned Block.reset) 0 0x40000001#32))).block.planeMask = .set 0b0001#4 := by decide

theorem test_setWriteEnable : (left (exec (.setWriteEnable 0b0100)
    (at_ (owned gfx) 0 0x50000004#32))).block.writeEnable = .set 0b0100#4 := by decide

theorem test_setReadPlane : (left (exec (.setReadPlane 2)
    (at_ (owned gfx) 0 0x60000002#32))).block.readPlane = .set 2#2 := by decide

/-- G15: a primitive command of another caller faults, it does not hold. -/
theorem test_setPlaneMask_notOwner : (left (exec (.setPlaneMask 1)
    (at_ (owned gfx) 1 0x40000001#32))).block.fault = 2#4 := by decide

/-- G2: plane 2 of what G1 leaves. -/
theorem test_fbRead : responses (exec (.fbRead 100) (at_ (owned { gfx with
      readPlane := .set 2#2
      planes := (Vector.replicate 4 []).set 2 [(100, TByte.ofByte 0x3C#8)] }) 0 0x80000064#32)) 0 =
    [.okByte 0x3C#8] := by decide

/-- G8, F2: the window ends at 76800, and FB_RANGE comes before REG_UNSET. -/
theorem test_fbRead_range : (left (exec (.fbRead 76800)
    (at_ (owned gfx) 0 0x80012C00#32))).block.fault = 6#4 := by decide

/-- G4: plane 2 is forced to 0x00. -/
theorem test_fbWrite : ∀ p : Fin 4, byteIs (left (exec (.fbWrite 101 0xFF) (at_ (owned { gfx with
      writeEnable := .set 0b0100#4 }) 0 0x900065FF#32))) p 101 (if p = 2 then 0x00#8 else 0xFF#8) := by
  unfold byteIs
  decide

/-- G5: an empty plane mask writes no plane and logs one event. -/
theorem test_fbWrite_noPlane : (left (exec (.fbWrite 7 0x55) (at_ (owned { gfxWith 7 0#8 with
      planeMask := .set 0b0000#4 }) 0 0x90000755#32))).block.planes = (gfxWith 7 0#8).planes ∧
    (left (exec (.fbWrite 7 0x55) (at_ (owned { gfxWith 7 0#8 with
      planeMask := .set 0b0000#4 }) 0 0x90000755#32))).block.log =
      [.wr 0 7 (TByte.ofByte 0x55#8) 0b0000#4 0b0000#4] := by decide

/-! ## The lock -/

/-- L1. -/
theorem test_lock : (left (exec .lock (at_ gfx 0 0xD0000000#32))).block.lockOwner = some 0 ∧
    (left (exec .lock (at_ gfx 0 0xD0000000#32))).block.log = [.acquire 0] := by decide

/-- L2, P4c. -/
theorem test_lock_held : (left (exec .lock (at_ (owned gfx) 0 0xD0000000#32))).block.fault = 3#4 ∧
    (left (exec .lock (at_ (owned gfx) 0 0xD0000000#32))).block.lockOwner = some 0 := by decide

theorem test_unlock : (left (exec .unlock (at_ (owned gfx) 0 0xE0000000#32))).block.lockOwner = none :=
  by decide

/-- L3. -/
theorem test_unlock_notOwner : (left (exec .unlock (at_ gfx 0 0xE0000000#32))).block.fault = 2#4 := by
  decide

/-- L7: another caller's SET_PIXEL holds: no event, no fault, still outstanding. -/
theorem test_hold : (left (step (waiting (owned gfx) [(1, ⟨0x30000001#32, []⟩)]))).block.log = [] ∧
    (left (step (waiting (owned gfx) [(1, ⟨0x30000001#32, []⟩)]))).block.fault = 0#4 ∧
    ((left (step (waiting (owned gfx) [(1, ⟨0x30000001#32, []⟩)]))).caller 1).index = 0 := by decide

/-! ## Planar writer -/

/-- A1, A2, A7, A8. -/
theorem test_address : (pixelOffset 0 0, pixelBit 0) = (0, 7) ∧
    (pixelOffset 639 479, pixelBit 639) = (38399, 0) ∧
    (pixelOffset 5 3, pixelBit 5, pixelMask 5) = (240, 2, 0x04#8) ∧
    (pixelOffset 320 240, pixelBit 320) = (19240, 7) := by decide

/-- W3, where bits 6 to 0 keep what FB_WRITE left, and W10, where the rest of a byte stays `?`. -/
theorem test_setPixel : (∀ p : Fin 4,
      byteIs (left (exec (.setPixel 0 0 0xA) (at_ (gfxWith 0 0x7F#8) 0 0x3000000A#32))) p 0
        (if p = 1 ∨ p = 3 then 0xFF#8 else 0x7F#8)) ∧
    (left (exec (.setPixel 1 0 6) (at_ gfx 0 0x30040006#32))).block.pixelCode 1 0 = knownCode 6 ∧
    (left (exec (.setPixel 1 0 6) (at_ gfx 0 0x30040006#32))).block.pixelCode 0 0 =
      Vector.replicate 4 .unknown := by
  unfold byteIs
  decide

/-- W6, F3: COORD_RANGE in GFX640, NOT_IN_MODE in OTHER. -/
theorem test_setPixel_faults : (left (exec (.setPixel 640 0 1) (at_ gfx 0 0x3A000001#32))).block.fault =
      5#4 ∧
    (left (exec (.setPixel 640 0 1) (at_ Block.reset 0 0x3A000001#32))).block.fault = 4#4 := by decide

/-- W11: SET_MODE loses the registers and the planes. -/
theorem test_setMode : (left (exec .setMode (at_ (gfxWith 5 1#8) 0 0x10000000#32))).block.mode =
      .gfx640 ∧
    (left (exec .setMode (at_ (gfxWith 5 1#8) 0 0x10000000#32))).block.planeMask = .unset ∧
    (left (exec .setMode (at_ (gfxWith 5 1#8) 0 0x10000000#32))).block.planes =
      Vector.replicate 4 [] ∧
    (left (exec .setMode (at_ (gfxWith 5 1#8) 0 0x10000000#32))).block.log =
      [.acquire 0, .mode 0, .pal 0, .release 0] := by decide

/-- W8. -/
theorem test_clearScreen_mode :
    (left (exec .clearScreen (at_ Block.reset 0 0x20000000#32))).block.fault = 4#4 := by decide

/-- The first three writes of a clear, on every plane. -/
theorem test_clearSweep : ∀ p : Fin 4, ∀ off : Fin 3,
    ((gfxWith 1 0x7F#8).clearSweep 0 3).planeByte p off = TByte.ofByte 0x00#8 := by decide

/-! ## Steps -/

/-- W7 with the fault record, from reset. -/
theorem test_step_fault :
    (left (step (State.reset.withFetchWord 32 0x3000000F))).block.fault = 4#4 ∧
    (left (step (State.reset.withFetchWord 32 0x3000000F))).block.faultWord = some 0x3000000F#32 ∧
    (left (step (State.reset.withFetchWord 32 0x3000000F))).block.faultCaller = some 0 ∧
    (left (step (State.reset.withFetchWord 32 0x3000000F))).block.halted = true := by decide

/-- F4: ILLEGAL_COMMAND comes before LOCK_HELD. -/
theorem test_step_illegal :
    (left (step (waiting (owned Block.reset) [(0, ⟨0x30000010#32, []⟩)]))).block.fault = 1#4 := by
  decide

/-- R21: a caller issues its command, and the next step runs it. -/
theorem test_step_issue :
    (left (step (toIssue Block.reset [(0, ⟨0xD0000000#32, []⟩)]))).outstanding =
      [⟨0, ⟨0xD0000000#32, []⟩⟩] ∧
    (left (step (toIssue Block.reset [(0, ⟨0xD0000000#32, []⟩)]))).block.lockOwner = none ∧
    (left (step (left (step (toIssue Block.reset [(0, ⟨0xD0000000#32, []⟩)]))))).block.lockOwner =
      some 0 := by decide

/-- R165, R158: a reset discards the outstanding command without a response. -/
theorem test_step_reset_discards :
    (left (step { waiting gfx [(0, ⟨0xD0000000#32, []⟩)] with resetInput := true })).outstanding = [] ∧
    ((left (step { waiting gfx [(0, ⟨0xD0000000#32, []⟩)] with resetInput := true })).caller 0).index =
      0 ∧
    ((left (step { waiting gfx [(0, ⟨0xD0000000#32, []⟩)] with
      resetInput := true })).caller 0).responses = [] := by decide

/-- R165: reset leaves the halted state. -/
theorem test_step_reset : (left (step { at_ (gfx.raiseFault .lockHeld 0 0#32) 0 0#32 with
      resetInput := true })).block.halted = false ∧
    (left (step { at_ (gfx.raiseFault .lockHeld 0 0#32) 0 0#32 with
      resetInput := true })).block.mode = .other := by decide

/-! ## Witnesses: states that meet the hypotheses of the statements -/

theorem witness_DecodeOfEncodeGivesTheCommand :
    (Instr.setPixel 639 479 9).wellFormed = true ∧
      (Instr.loadPalette (List.replicate 768 63#8)).wellFormed = true := by decide +kernel

theorem witness_EncodeOfDecodeGivesTheTransaction :
    decode 0x39FFBE09#32 [] = .ok (.setPixel 639 479 9) := by decide

theorem witness_DecodesExactlyTheTableRows :
    (∃ row ∈ opcodeTable, (0x3FFFFE0F#32 : Word) &&& row.mask = row.pattern ∧
      ([] : List Byte).length = row.opcode.payloadLength) ∧
    (∀ row ∈ opcodeTable, ¬ ((0x30000010#32 : Word) &&& row.mask = row.pattern ∧
      ([] : List Byte).length = row.opcode.payloadLength)) ∧
    (∃ row ∈ opcodeTable, (0xE0000000#32 : Word) &&& row.mask = row.pattern) := by decide

theorem witness_ByteTransportCarriesTheTransaction : ([0#8, 0#8, 0#8] : List Byte).length < 4 := by
  decide

/-- The reserved opcodes 0x0 and 0xF and a reserved bit, each granted. -/
theorem witness_IllegalTransactionRaisesIllegalCommand :
    (waiting gfx [(0, ⟨0x00000000#32, []⟩)]).turn = some (.execute ⟨0, ⟨0x00000000#32, []⟩⟩) ∧
    field 0x00000000#32 31 28 = 0x0#4 ∧
    (waiting gfx [(0, ⟨0xF0000000#32, []⟩)]).turn = some (.execute ⟨0, ⟨0xF0000000#32, []⟩⟩) ∧
    field 0xF0000000#32 31 28 = 0xF#4 ∧
    (waiting gfx [(0, ⟨0x30000010#32, []⟩)]).turn = some (.execute ⟨0, ⟨0x30000010#32, []⟩⟩) ∧
    (∃ row ∈ opcodeTable, field 0x30000010#32 31 28 = field row.pattern 31 28 ∧
      (0x30000010#32 : Word) &&& row.mask ≠ row.pattern) := by
  refine ⟨by decide, by decide, by decide, by decide, by decide, by decide⟩

/-- A wrong payload length, granted, and the term of log 12. -/
theorem witness_IllegalTransactionRaisesIllegalCommand_payload :
    (waiting gfx [(0, ⟨0x10000000#32, [0#8]⟩)]).turn = some (.execute ⟨0, ⟨0x10000000#32, [0#8]⟩⟩) ∧
    (∃ row ∈ opcodeTable, field 0x10000000#32 31 28 = field row.pattern 31 28 ∧
      1 ≠ row.opcode.payloadLength) ∧
    gfx.halted = false ∧ (List.replicate 767 0#8).length ≠ 768 := by
  refine ⟨by decide, by decide, by decide, by rw [List.length_replicate]; decide⟩

theorem witness_StepRunsTheDecodedCommand :
    (waiting gfx [(2, ⟨0xD0000000#32, []⟩)]).resetInput = false ∧
    (waiting gfx [(2, ⟨0xD0000000#32, []⟩)]).turn = some (.execute ⟨2, ⟨0xD0000000#32, []⟩⟩) ∧
    decode 0xD0000000#32 [] = .ok .lock := by decide

theorem witness_PlacedWordRunsNext : State.reset.block.halted = false ∧
    decodeTableWord 32 0x10000000 = some .setMode ∧
    (owned gfx).halted = false := by decide

theorem reset_inv : State.reset.Inv := by
  refine ⟨?_, ⟨⟨.nil, ?_⟩, ?_, ?_, ?_, ?_⟩⟩
  · constructor
    · intro p
      show Memory.wf (Vector.replicate 4 [])[p]
      rw [Fin.getElem_fin, Vector.getElem_replicate]
      exact Memory.nil_wf
    · intro _ p
      show (Vector.replicate 4 [] : Vector Memory 4)[p] = []
      rw [Fin.getElem_fin, Vector.getElem_replicate]
    · intro h
      cases h
    · intro c h
      cases h
    · decide
    · decide
    · rfl
    · rfl
    · intro c h
      cases h
  all_goals
    intro e he
    exact absurd he List.not_mem_nil

/-- One command of caller 0, issued or not, meets the callers' invariant. -/
theorem withCommands_callersInv (issued : Bool) (b : Block) (cmd : Command) :
    CallersInv (withCommands issued b [(0, cmd)]).callers where
  canonical := ⟨List.pairwise_singleton _ _, fun e he => by
    rw [List.mem_singleton.mp he]; exact fun h => by cases h⟩
  idInRange := fun e he => by rw [List.mem_singleton.mp he]; exact Nat.succ_pos _
  responses := fun e he => by rw [List.mem_singleton.mp he]; rfl
  index := fun e he => by rw [List.mem_singleton.mp he]; exact Nat.zero_le _
  issued := fun e he _ => by rw [List.mem_singleton.mp he]; exact Nat.one_pos

/-- A state that meets the invariant, with the lock free and LOCK enabled; an illegal transaction and
a command that takes no lock, each enabled behind another caller's lock; and a LOCK that is not. -/
theorem witness_EnabledExactlyWhenTheLockAllows :
    (waiting Block.reset [(0, ⟨0xD0000000#32, []⟩)]).Inv ∧
    (waiting Block.reset [(0, ⟨0xD0000000#32, []⟩)]).enabled = [⟨0, ⟨0xD0000000#32, []⟩⟩] ∧
    (waiting (owned gfx) [(1, ⟨0xF0000000#32, []⟩)]).enabled = [⟨1, ⟨0xF0000000#32, []⟩⟩] ∧
    (waiting (owned gfx) [(1, ⟨0xA00000E1#32, []⟩)]).enabled = [⟨1, ⟨0xA00000E1#32, []⟩⟩] ∧
    (waiting (owned gfx) [(1, ⟨0xD0000000#32, []⟩)]).enabled = [] :=
  ⟨⟨reset_inv.block, withCommands_callersInv _ _ _⟩, by decide, by decide, by decide, by decide⟩

/-- Every clause: nothing to issue or to run; a held command; a halted block. -/
theorem witness_NothingEnabledNothingChanges :
    State.reset.resetInput = false ∧ State.reset.enabled = [] ∧ State.reset.ready = [] ∧
    (waiting (owned gfx) [(1, ⟨0xD0000000#32, []⟩)]).enabled = [] ∧
    (waiting (gfx.raiseFault .lockHeld 0 0#32) [(1, ⟨0xD0000000#32, []⟩)]).block.halted = true ∧
    (waiting (gfx.raiseFault .lockHeld 0 0#32) [(1, ⟨0xD0000000#32, []⟩)]).resetInput = false := by
  decide

/-- L8: caller 0 has the lock and issues nothing, caller 1 waits with CLEAR_SCREEN. -/
theorem witness_UnreleasedLockBlocksItsTakers :
    (waiting (owned gfx) [(1, ⟨0x20000000#32, []⟩)]).block.lockOwner = some 0 ∧
    (waiting (owned gfx) [(1, ⟨0x20000000#32, []⟩)]).resetInput = false ∧
    (waiting (owned gfx) [(1, ⟨0x20000000#32, []⟩)]).outstanding = [⟨1, ⟨0x20000000#32, []⟩⟩] ∧
    (waiting (owned gfx) [(1, ⟨0x20000000#32, []⟩)]).ready = [] ∧
    decode 0x20000000#32 [] = .ok .clearScreen := by decide

theorem witness_CompleteRunStays : State.reset.Inv ∧ State.reset.resetInput = false ∧
    State.reset.outstanding = [] ∧ State.reset.ready = [] ∧
    State.reset.block.lockOwner = none ∧ State.reset.block.fault = 0#4 ∧ State.reset.Complete :=
  ⟨reset_inv, rfl, rfl, rfl, rfl, rfl, by simp [State.reset], rfl, rfl, rfl⟩

/-- A reset with a command outstanding. -/
theorem witness_ResetStepRestoresTheBlock :
    CallersInv (waiting gfx [(0, ⟨0xD0000000#32, []⟩)]).callers ∧
    ({ waiting gfx [(0, ⟨0xD0000000#32, []⟩)] with resetInput := true } : State).resetInput = true ∧
    (waiting gfx [(0, ⟨0xD0000000#32, []⟩)]).outstanding ≠ [] :=
  ⟨withCommands_callersInv _ _ _, rfl, by decide⟩

theorem witness_RespondGivesOneResponse : (1 : CallerId) ≠ State.reset.issuer := by decide

/-- It holds halted, and behind another caller's lock; otherwise it does not hold. -/
theorem witness_EveryCommandHoldsFaultsOrCompletes :
    Holds .lock (at_ (gfx.raiseFault .lockHeld 0 0#32) 0 0xD0000000#32) ∧
    Holds .lock (at_ (owned gfx) 1 0xD0000000#32) ∧ ¬ Holds .lock (at_ gfx 0 0xD0000000#32) := by
  unfold Holds
  decide

theorem witness_NotOwnerIsRaisedFirst :
    (at_ gfx 0 0#32).block.halted = false ∧
    (at_ gfx 0 0#32).block.lockOwner ≠ some (at_ gfx 0 0#32).issuer ∧
    (List.replicate 768 64#8).length = 768 := by decide +kernel

/-- The owner's own command, and another caller's. -/
theorem witness_LockIsCheckedBeforeModeAndRange :
    (at_ (owned Block.reset) 0 0#32).block.halted = false ∧
    (at_ (owned Block.reset) 0 0#32).block.lockOwner = some (at_ (owned Block.reset) 0 0#32).issuer ∧
    (at_ (owned Block.reset) 1 0#32).block.lockOwner = some 0 ∧
    (0 : CallerId) ≠ (at_ (owned Block.reset) 1 0#32).issuer := by decide

theorem witness_OtherModeRaisesNotInMode :
    (at_ Block.reset 0 0#32).block.halted = false ∧ (at_ Block.reset 0 0#32).block.mode = .other ∧
    (at_ Block.reset 0 0#32).block.lockOwner = none ∧
    (at_ (owned Block.reset) 0 0#32).block.mode = .other ∧
    (at_ (owned Block.reset) 0 0#32).block.lockOwner =
      some (at_ (owned Block.reset) 0 0#32).issuer := by decide

/-- For the three ATTR statements. -/
theorem witness_attr : (at_ Block.reset 3 0#32).block.halted = false := by decide

/-- Not the owner; a byte of 64; every byte 63. -/
theorem witness_LoadPaletteReplacesTheLut :
    (at_ gfx 0 0#32).block.lockOwner ≠ some (at_ gfx 0 0#32).issuer ∧
    (at_ (owned gfx) 0 0#32).block.halted = false ∧
    (at_ (owned gfx) 0 0#32).block.lockOwner = some (at_ (owned gfx) 0 0#32).issuer ∧
    (List.replicate 768 64#8).length = 768 ∧ (∃ v ∈ List.replicate 768 64#8, 63 < v.toNat) ∧
    (List.replicate 768 63#8).length = 768 ∧ (∀ v ∈ List.replicate 768 63#8, v.toNat ≤ 63) :=
  ⟨by decide, rfl, rfl, List.length_replicate,
    ⟨64#8, List.mem_replicate.mpr ⟨by decide, rfl⟩, by decide⟩, List.length_replicate,
    fun v hv => by rw [(List.mem_replicate.mp hv).2]; decide⟩

/-- SET_PLANE_MASK, SET_WRITE_ENABLE, SET_READ_PLANE: a caller without the lock, and its owner. -/
theorem witness_selectorWrites : (at_ gfx 0 0#32).block.halted = false ∧
    (at_ gfx 0 0#32).block.lockOwner ≠ some (at_ gfx 0 0#32).issuer ∧
    (at_ (owned gfx) 0 0#32).block.halted = false ∧
    (at_ (owned gfx) 0 0#32).block.lockOwner = some (at_ (owned gfx) 0 0#32).issuer := by decide

/-- Each clause in turn, at offsets 76800 and 76799, and a known and a `?` bit. -/
theorem witness_FbReadReturnsThePlaneByte :
    (at_ gfx 0 0#32).block.lockOwner ≠ some (at_ gfx 0 0#32).issuer ∧
    (at_ (owned Block.reset) 0 0#32).block.mode ≠ .gfx640 ∧
    (at_ (owned gfx) 0 0#32).block.lockOwner = some (at_ (owned gfx) 0 0#32).issuer ∧
    (at_ (owned gfx) 0 0#32).block.mode = .gfx640 ∧ 76800 ≤ (76800#17).toNat ∧
    (76799#17).toNat < 76800 ∧ (at_ (owned gfx) 0 0#32).block.readPlane = .unset ∧
    (at_ (owned { gfxWith 76799 1#8 with readPlane := .set 3#2 }) 0 0#32).block.readPlane = .set 3#2 ∧
    ((gfxWith 76799 1#8).planeByte (planeIndex 3#2) 76799)[0] = .known true ∧
    ((gfxWith 76799 1#8).planeByte (planeIndex 3#2) 76798)[0] = .unknown := by decide

/-- Each clause in turn, at offsets 76800 and 76799; also for `FbReadAfterFbWriteGivesTheByte`. -/
theorem witness_FbWriteStoresThroughTheMasks :
    (at_ gfx 0 0#32).block.lockOwner ≠ some (at_ gfx 0 0#32).issuer ∧
    (at_ (owned Block.reset) 0 0#32).block.mode ≠ .gfx640 ∧
    (at_ (owned gfx) 0 0#32).block.halted = false ∧
    (at_ (owned gfx) 0 0#32).block.lockOwner = some (at_ (owned gfx) 0 0#32).issuer ∧
    (at_ (owned gfx) 0 0#32).block.mode = .gfx640 ∧ 76800 ≤ (76800#17).toNat ∧
    (76799#17).toNat < 76800 ∧
    (at_ (owned { gfx with writeEnable := .unset }) 0 0#32).block.writeEnable = .unset ∧
    (at_ (owned gfx) 0 0#32).block.planeMask = .set 0b1111#4 ∧
    (at_ (owned gfx) 0 0#32).block.writeEnable = .set 0b0000#4 ∧
    (0b1111#4)[(3#2).toNat] = true := by decide

/-- The lock clauses of `LockTakesTheFreeLock`, `SetModeEntersGraphicsMode`, `SetPixelRunsFourRounds`
and `ClearScreenClearsTheWindow`: own, another caller's, free. -/
theorem witness_lockClauses :
    (at_ (owned gfx) 0 0#32).block.halted = false ∧
    (at_ (owned gfx) 0 0#32).block.lockOwner = some (at_ (owned gfx) 0 0#32).issuer ∧
    (at_ (owned gfx) 1 0#32).block.lockOwner = some 0 ∧
    (0 : CallerId) ≠ (at_ (owned gfx) 1 0#32).issuer ∧
    (at_ gfx 0 0#32).block.halted = false ∧ (at_ gfx 0 0#32).block.lockOwner = none := by decide

/-- UNLOCK: not the owner, and the owner. -/
theorem witness_UnlockFreesTheLock :
    (at_ gfx 0 0#32).block.halted = false ∧
    (at_ gfx 0 0#32).block.lockOwner ≠ some (at_ gfx 0 0#32).issuer ∧
    (at_ (owned gfx) 0 0#32).block.lockOwner = some (at_ (owned gfx) 0 0#32).issuer := by decide

/-- The last pixel, and the last offset and bit. -/
theorem witness_PixelAddressesAreABijection : 639 < 640 ∧ 479 < 480 ∧ 38399 < 38400 ∧ 7 < 8 ∧
    pixelOffset 639 479 = 38399 ∧ pixelBit 632 = 7 := by decide

/-- SET_PIXEL in OTHER mode, at x = 640, at y = 480, and at (639, 479). Also for
`SetPixelSetsExactlyItsPixel`. -/
theorem witness_SetPixelRunsFourRounds :
    (at_ Block.reset 0 0#32).block.lockOwner = none ∧ (at_ Block.reset 0 0#32).block.mode ≠ .gfx640 ∧
    (at_ gfx 0 0#32).block.halted = false ∧ (at_ gfx 0 0#32).block.lockOwner = none ∧
    (at_ gfx 0 0#32).block.mode = .gfx640 ∧
    640 ≤ (640#10).toNat ∧ 480 ≤ (480#9).toNat ∧ (639#10).toNat < 640 ∧ (479#9).toNat < 480 := by
  decide

/-- Two pixels of one byte. -/
theorem witness_SetPixelsOnDifferentPixelsCommute :
    (at_ gfx 0 0#32).block.halted = false ∧ (at_ gfx 0 0#32).block.lockOwner = none ∧
    (at_ gfx 0 0#32).block.mode = .gfx640 ∧ (5#10).toNat < 640 ∧ (4#10).toNat < 640 ∧
    (3#9).toNat < 480 ∧ ((5#10) ≠ (4#10) ∨ (3#9) ≠ (3#9)) := by decide

theorem witness_ClearScreenClearsTheWindow :
    (at_ Block.reset 0 0#32).block.lockOwner = none ∧ (at_ Block.reset 0 0#32).block.mode ≠ .gfx640 ∧
    (at_ gfx 0 0#32).block.halted = false ∧ (at_ gfx 0 0#32).block.lockOwner = none ∧
    (at_ gfx 0 0#32).block.mode = .gfx640 := by decide

/-- The invariant in GFX640 with the lock free. -/
theorem witness_ClearScreenIsIdempotent :
    (at_ gfx 0 0#32).block.halted = false ∧ (at_ gfx 0 0#32).block.lockOwner = none ∧
    (at_ gfx 0 0#32).block.mode = .gfx640 ∧ (at_ gfx 0 0#32).Inv := by
  refine ⟨rfl, rfl, rfl, ?_, reset_inv.callers⟩
  have hr := reset_inv.block
  exact {
    planesWf := hr.planesWf
    otherMode := fun h => by cases h
    lutSet := fun _ i => by
      show LutEntry.AllSet (Vector.replicate 256 ⟨.set 0#6, .set 0#6, .set 0#6⟩)[i]
      rw [Fin.getElem_fin, Vector.getElem_replicate]
      exact ⟨by decide, by decide, by decide⟩
    ownerCaller := fun c h => by cases h
    halted := hr.halted
    faultCode := hr.faultCode
    faultCaller := rfl
    faultWord := rfl
    faultIsCaller := fun c h => by cases h }

/-- A pixel with a known code and a set entry; with an UNSET entry; a pixel with a `?`; and a SET_PIXEL
that completes, with every entry set. -/
theorem witness_DisplayedColourIsTheLutEntry :
    (gfxWith 0 0xFF#8).pixelCode 0 0 = knownCode 0xF#4 ∧
    (∀ i : Fin 256, (gfxWith 0 0xFF#8).lut[i] = ⟨.set 0#6, .set 0#6, .set 0#6⟩) ∧
    (∀ i : Fin 256, ¬ Block.reset.lut[i].AllSet) ∧ gfx.pixelCodeBit 0 0 0 = .unknown ∧
    (at_ (gfxWith 0 0xFF#8) 0 0#32).block.halted = false ∧
    (at_ (gfxWith 0 0xFF#8) 0 0#32).block.lockOwner = none ∧
    (at_ (gfxWith 0 0xFF#8) 0 0#32).block.mode = .gfx640 ∧
    (639#10).toNat < 640 ∧ (479#9).toNat < 480 := by
  refine ⟨by decide, fun i => ?_, fun i => ?_, by decide, rfl, rfl, rfl, by decide, by decide⟩
  · show (Vector.replicate 256 ⟨.set 0#6, .set 0#6, .set 0#6⟩ : Vector LutEntry 256)[i] = _
    rw [Fin.getElem_fin, Vector.getElem_replicate]
  · show ¬ LutEntry.AllSet (Vector.replicate 256 ⟨.unset, .unset, .unset⟩)[i]
    rw [Fin.getElem_fin, Vector.getElem_replicate]
    decide

/-- SET_MODE from OTHER changes MODE; a reset leaves GFX640. -/
theorem witness_OnlySetModeEntersAndOnlyResetLeaves :
    (left (exec .setMode (at_ Block.reset 0 0#32))).block.mode ≠ (at_ Block.reset 0 0#32).block.mode ∧
    (at_ gfx 0 0#32).block.mode = .gfx640 ∧
    (left (step { at_ gfx 0 0#32 with resetInput := true })).block.mode = .other := by decide

/-- MODE, the fault record, each register, the owner and a plane byte do change under a command. -/
theorem witness_StateChangesOnlyUnderItsWriters :
    (left (exec .setMode (at_ Block.reset 0 0#32))).block.mode ≠ Block.reset.mode ∧
    (left (exec .unlock (at_ gfx 0 0#32))).block.fault ≠ gfx.fault ∧
    (left (exec (.setPlaneMask 1) (at_ (owned gfx) 0 0#32))).block.planeMask ≠ gfx.planeMask ∧
    (left (exec (.setWriteEnable 1) (at_ (owned gfx) 0 0#32))).block.writeEnable ≠ gfx.writeEnable ∧
    (left (exec (.setReadPlane 1) (at_ (owned gfx) 0 0#32))).block.readPlane ≠ gfx.readPlane ∧
    (left (exec .lock (at_ gfx 0 0#32))).block.lockOwner ≠ gfx.lockOwner ∧
    (left (exec (.fbWrite 0 1) (at_ (owned gfx) 0 0#32))).block.planeByte 0 0 ≠ gfx.planeByte 0 0 := by
  decide

theorem witness_StateChangesOnlyUnderItsWriters_lut :
    (left (exec (.loadPalette (List.replicate 768 1#8)) (at_ (owned gfx) 0 0#32))).block.lut[0] ≠
      gfx.lut[0] := by decide +kernel

/-- A command that stores nothing, and has an effect. -/
theorem witness_NonStoringCommandsKeepEveryByte :
    exec .lock (at_ gfx 0 0#32) = .next (left (exec .lock (at_ gfx 0 0#32))) := rfl

theorem witness_LockShutsOtherCallersOut :
    (at_ (owned gfx) 1 0#32).block.lockOwner = some 0 ∧ (at_ (owned gfx) 1 0#32).issuer ≠ 0 ∧
    exec .unlock (at_ (owned gfx) 1 0#32) = .next (left (exec .unlock (at_ (owned gfx) 1 0#32))) :=
  ⟨rfl, by decide, rfl⟩

theorem witness_NoCommandReadsTheLog :
    exec (.attrNew 1 2) (at_ gfx 0 0#32) = .next (left (exec (.attrNew 1 2) (at_ gfx 0 0#32))) := rfl

/-- A step in which a caller issues its command. -/
theorem witness_IssuingMakesTheNextCommandOutstanding :
    CallersInv (toIssue gfx [(0, ⟨0xD0000000#32, []⟩)]).callers ∧
    (toIssue gfx [(0, ⟨0xD0000000#32, []⟩)]).resetInput = false ∧
    (toIssue gfx [(0, ⟨0xD0000000#32, []⟩)]).turn = some (.issue 0) :=
  ⟨withCommands_callersInv _ _ _, rfl, by decide⟩

/-- A step that appends to the log and advances one caller: for `LogOnlyGrows` and
`StepAdvancesAtMostOneCaller`. -/
theorem witness_steps :
    (waiting gfx [(0, ⟨0xD0000000#32, []⟩)]).resetInput = false ∧
    (left (step (waiting gfx [(0, ⟨0xD0000000#32, []⟩)]))).block.log = [.acquire 0] ∧
    ((left (step (waiting gfx [(0, ⟨0xD0000000#32, []⟩)]))).caller 0).index = 1 := by decide

/-- Reset meets the invariants that a step keeps, and a command runs from it. -/
theorem witness_StepKeepsTheInvariant : State.reset.Inv ∧
    (left (step (State.reset.withFetchWord 32 0x10000000))).block.mode = .gfx640 :=
  ⟨reset_inv, by decide⟩

/-- A block with a history: LOCK and one register write of caller 0. -/
def lockedOnce : Block := (Block.reset.acquire 0).writePlaneMask 0 0b0001#4

theorem witness_StepKeepsTheLogALegalHistory : lockedOnce.HistoryInv :=
  ⟨⟨rfl, rfl, trivial⟩, rfl⟩

theorem witness_NoForeignEventWhileLocked : lockedOnce.HistoryInv ∧
    lockedOnce.log = [] ++ [Event.acquire 0] ++ [Event.regWrite 0 (.planeMask 0b0001#4)] ++ [] ∧
    Event.release 0 ∉ [Event.regWrite 0 (.planeMask 0b0001#4)] :=
  ⟨witness_StepKeepsTheLogALegalHistory, rfl, by decide⟩

end Sys2Proof.Tests
end

/-! ## The event log as a history (O53, O49)

`Block.Records b b'` says that `b` becomes `b'` by events that are legal where they stand, that the log
gains, and that tell the whole change of view. Every shared operation records, records compose, and so
every completed command records. -/

namespace Sys2Proof.Machine

theorem replay_append (v : View) (es fs : List Event) :
    v.replay (es ++ fs) = (v.replay es).replay fs := List.foldl_append

theorem legalHistory_append {v : View} {es fs : List Event} :
    v.LegalHistory (es ++ fs) ↔ v.LegalHistory es ∧ (v.replay es).LegalHistory fs := by
  induction es generalizing v with
  | nil => simp [View.LegalHistory, View.replay]
  | cons e es ih => simp [View.LegalHistory, View.replay, ih, and_assoc]

/-- The log gains a legal history that tells how the view of `b` becomes that of `b'`. -/
def Block.Records (b b' : Block) : Prop :=
  ∃ es, b'.log = b.log ++ es ∧ b.view.LegalHistory es ∧ b.view.replay es = b'.view

namespace Block.Records
variable {b b' b'' : Block}

theorem refl (b : Block) : b.Records b := ⟨[], (List.append_nil _).symm, trivial, rfl⟩

theorem trans (h : b.Records b') (h' : b'.Records b'') : b.Records b'' := by
  obtain ⟨es, hlog, hlegal, hreplay⟩ := h
  obtain ⟨fs, hlog', hlegal', hreplay'⟩ := h'
  refine ⟨es ++ fs, ?_, ?_, ?_⟩
  · rw [hlog', hlog, List.append_assoc]
  · exact legalHistory_append.mpr ⟨hlegal, hreplay ▸ hlegal'⟩
  · rw [replay_append, hreplay, hreplay']

/-- One legal event whose effect is the change of view. -/
theorem of_event {e : Event} (hlog : b'.log = b.log ++ [e]) (hlegal : b.view.Legal e)
    (hview : b.view.apply e = b'.view) : b.Records b' := ⟨[e], hlog, ⟨hlegal, trivial⟩, hview⟩

theorem log_grows (h : b.Records b') : b.log <+: b'.log := by
  obtain ⟨es, hlog, -, -⟩ := h
  exact ⟨es, hlog.symm⟩

theorem historyInv (h : b.Records b') (hb : b.HistoryInv) : b'.HistoryInv := by
  obtain ⟨es, hlog, hlegal, hreplay⟩ := h
  constructor
  · rw [hlog]
    exact legalHistory_append.mpr ⟨hb.legal, hb.replay ▸ hlegal⟩
  · rw [hlog, replay_append, hb.replay, hreplay]

end Block.Records

/-! ### One event for each shared operation -/

section operations
variable {b : Block} {c : CallerId}

theorem acquire_records (ho : b.lockOwner = none) (c : CallerId) : b.Records (b.acquire c) :=
  .of_event rfl ho rfl

theorem release_records (ho : b.lockOwner = some c) : b.Records (b.release c) :=
  .of_event rfl ho rfl

theorem writePlaneMask_records (ho : b.lockOwner = some c) (v : BitVec 4) :
    b.Records (b.writePlaneMask c v) := .of_event rfl ho rfl

theorem writeWriteEnable_records (ho : b.lockOwner = some c) (v : BitVec 4) :
    b.Records (b.writeWriteEnable c v) := .of_event rfl ho rfl

theorem writeReadPlane_records (ho : b.lockOwner = some c) (v : BitVec 2) :
    b.Records (b.writeReadPlane c v) := .of_event rfl ho rfl

theorem loadLut_records (ho : b.lockOwner = some c) (payload : List Byte) :
    b.Records (b.loadLut c payload) := .of_event rfl ho rfl

theorem modeSwitch_records (ho : b.lockOwner = some c) (n : Nat) :
    b.Records (b.modeSwitch c n) := .of_event rfl ho rfl

theorem read_records (ho : b.lockOwner = some c) (hm : b.mode = .gfx640) {off : Nat}
    (hoff : off < Config.windowBytes) {p : BitVec 2} (hp : b.readPlane = .set p) :
    b.Records (b.logEvent (.rd c p off (b.planeByte (planeIndex p) off))) :=
  .of_event rfl ⟨ho, hm, hoff, hp, rfl⟩ rfl

theorem memWrite_records (ho : b.lockOwner = some c) (hm : b.mode = .gfx640) {off : Nat}
    (hoff : off < Config.windowBytes) {pm we : BitVec 4} (hp : b.planeMask = .set pm)
    (hw : b.writeEnable = .set we) (v : TByte) : b.Records (b.memWrite c off v) := by
  rw [memWrite_eq hp hw]
  exact .of_event rfl ⟨ho, hm, hoff, hp, hw⟩ rfl

end operations

/-! ### The composite commands -/

/-- Where a composite command draws: its caller owns the lock, the mode is GFX640 and WRITE_ENABLE is 0
(`43_planar_writer.md` R132, R134). -/
structure Block.Drawing (c : CallerId) (b : Block) : Prop where
  owner       : b.lockOwner = some c
  gfx640      : b.mode = .gfx640
  writeEnable : b.writeEnable = .set 0#4

section composite
variable {b : Block} {c : CallerId} {off : Nat}

theorem setMode_records (ho : b.lockOwner = none) (c : CallerId) (n : Nat) :
    b.Records (b.setMode c n) :=
  (acquire_records ho c).trans <| (modeSwitch_records rfl n).trans <|
    (loadLut_records rfl _).trans (release_records rfl)

theorem pixelRound_drawing (h : b.Drawing c) (off : Nat) (m : Byte) (color : BitVec 4)
    (p : BitVec 2) : (b.pixelRound c off m color p).Drawing c := by
  rw [pixelRound_eq h.writeEnable]
  exact ⟨h.owner, h.gfx640, h.writeEnable⟩

theorem readThenWrite_records (h : b.Drawing c) (hoff : off < Config.windowBytes) {p : BitVec 2}
    {pm : BitVec 4} (hp : b.readPlane = .set p) (hpm : b.planeMask = .set pm) (v : TByte) :
    b.Records ((b.logEvent (.rd c p off (b.planeByte (planeIndex p) off))).memWrite c off v) :=
  (read_records h.owner h.gfx640 hoff hp).trans
    (memWrite_records (b := b.logEvent _) h.owner h.gfx640 hoff hpm h.writeEnable v)

theorem pixelRound_records (h : b.Drawing c) (hoff : off < Config.windowBytes) (m : Byte)
    (color : BitVec 4) (p : BitVec 2) : b.Records (b.pixelRound c off m color p) := by
  simp only [Block.pixelRound,
    memRead_eq (b := (b.writeReadPlane c p).writePlaneMask c (planeSelect p)) (p := p) rfl]
  have hstart : ((b.writeReadPlane c p).writePlaneMask c (planeSelect p)).Drawing c :=
    ⟨h.owner, h.gfx640, h.writeEnable⟩
  exact (writeReadPlane_records h.owner p).trans <|
    (writePlaneMask_records (b := b.writeReadPlane c p) h.owner (planeSelect p)).trans <|
    readThenWrite_records hstart hoff rfl rfl _

theorem fourRounds_drawing (h : b.Drawing c) (off : Nat) (m : Byte) (color : BitVec 4) :
    (fourRounds c off m color b).Drawing c := by
  unfold fourRounds
  iterate 4 refine pixelRound_drawing ?_ _ _ _ _
  exact h

theorem fourRounds_records (h : b.Drawing c) (hoff : off < Config.windowBytes) (m : Byte)
    (color : BitVec 4) : b.Records (fourRounds c off m color b) := by
  have h1 := pixelRound_drawing h off m color 0#2
  have h2 := pixelRound_drawing h1 off m color 1#2
  have h3 := pixelRound_drawing h2 off m color 2#2
  exact (pixelRound_records h hoff m color 0#2).trans <|
    (pixelRound_records h1 hoff m color 1#2).trans <|
    (pixelRound_records h2 hoff m color 2#2).trans (pixelRound_records h3 hoff m color 3#2)

theorem setPixel_records (ho : b.lockOwner = none) (hm : b.mode = .gfx640) {x y : Nat}
    (hx : x < Config.width) (hy : y < Config.height) (c : CallerId) (color : BitVec 4) :
    b.Records (b.setPixel c x y color) := by
  have hoff : pixelOffset x y < Config.windowBytes :=
    (pixelOffset_lt hx hy).trans_le (by decide)
  have hstart : (pixelStart c b).Drawing c := ⟨rfl, hm, rfl⟩
  exact (acquire_records ho c).trans <| (writeWriteEnable_records rfl 0b0000#4).trans <|
    (fourRounds_records hstart hoff (pixelMask x) color).trans <|
    release_records (fourRounds_drawing hstart _ _ _).owner

theorem clearSweep_drawing (h : b.Drawing c) (hp : b.planeMask = .set 0b1111#4) (n : Nat) :
    (b.clearSweep c n).Drawing c := by
  obtain ⟨planes, he⟩ := clearSweep_eq hp h.writeEnable c n
  rw [he]
  exact ⟨h.owner, h.gfx640, h.writeEnable⟩

theorem clearSweep_records (h : b.Drawing c) (hp : b.planeMask = .set 0b1111#4) {n : Nat}
    (hn : n ≤ Config.windowBytes) : b.Records (b.clearSweep c n) := by
  induction n with
  | zero => exact .refl b
  | succ n ih =>
    have hd := clearSweep_drawing h hp n
    have hpm : (b.clearSweep c n).planeMask = .set 0b1111#4 := by
      obtain ⟨planes, he⟩ := clearSweep_eq hp h.writeEnable c n
      rw [he, hp]
    exact (ih (by omega)).trans (memWrite_records hd.owner hd.gfx640 hn hpm hd.writeEnable _)

theorem clearScreen_records (ho : b.lockOwner = none) (hm : b.mode = .gfx640) (c : CallerId) :
    b.Records (b.clearScreen c) := by
  have hstart : (clearStart c b).Drawing c := ⟨rfl, hm, rfl⟩
  rw [clearScreen_body]
  exact (acquire_records ho c).trans <| (writePlaneMask_records rfl 0b1111#4).trans <|
    (writeWriteEnable_records rfl 0b0000#4).trans <|
    (clearSweep_records hstart rfl le_rfl).trans <|
    release_records (clearSweep_drawing hstart rfl _).owner

end composite

/-! ### Every command and every step -/

/-- A completed command records all it changes of the view (`10_state.md` R30). -/
theorem completes_records {i : Instr} {s : State} {r : Response} {b : Block} {d : Draws}
    (h : Completes i s r b d) : s.block.Records b := by
  cases i with
  | setMode => obtain ⟨ho, -, rfl, -⟩ := h; exact setMode_records ho _ _
  | clearScreen => obtain ⟨ho, hm, -, rfl, -⟩ := h; exact clearScreen_records ho hm _
  | setPixel x y color =>
    obtain ⟨ho, hm, hx, hy, -, rfl, -⟩ := h; exact setPixel_records ho hm hx hy _ _
  | setPlaneMask m => obtain ⟨ho, -, rfl, -⟩ := h; exact writePlaneMask_records ho m
  | setWriteEnable m => obtain ⟨ho, -, rfl, -⟩ := h; exact writeWriteEnable_records ho m
  | setReadPlane p => obtain ⟨ho, -, rfl, -⟩ := h; exact writeReadPlane_records ho p
  | loadPalette payload => obtain ⟨ho, -, rfl, -⟩ := h; exact loadLut_records ho payload
  | fbRead off =>
    obtain ⟨ho, hm, hoff, p, hp, -, rfl, -⟩ := h; exact read_records ho hm hoff hp
  | fbWrite off data =>
    obtain ⟨ho, hm, hoff, pm, we, hp, hw, -, rfl, -⟩ := h
    exact memWrite_records ho hm hoff hp hw _
  | attrNew fg bg => obtain ⟨-, rfl, -⟩ := h; exact .refl _
  | attrSetFg a c => obtain ⟨-, rfl, -⟩ := h; exact .refl _
  | attrSetBg a c => obtain ⟨-, rfl, -⟩ := h; exact .refl _
  | lock => obtain ⟨ho, -, rfl, -⟩ := h; exact acquire_records ho _
  | unlock => obtain ⟨ho, -, rfl, -⟩ := h; exact release_records ho

/-- A fault records nothing and changes nothing of the view (`60_exceptions.md` R150). -/
theorem raised_records (s : State) (f : FaultCode) : s.block.Records (s.raised f).block :=
  .refl s.block

theorem ends_records {i : Instr} {s t : State} (h : Ends i s t) : s.block.Records t.block := by
  rcases h with ⟨-, rfl⟩ | ⟨-, f, rfl⟩ | ⟨-, r, b, d, hc, rfl⟩
  · exact .refl _
  · exact raised_records s f
  · exact completes_records hc

/-- A step other than a reset records all it changes of the view. -/
theorem step_records {s t : State} (hr : s.resetInput = false) (h : step s = .next t) :
    s.block.Records t.block := by
  rcases step_inv h with ⟨hr', -⟩ | ⟨-, -, rfl⟩ | ⟨-, c, -, rfl⟩ | ⟨-, tr, -, ⟨-, rfl⟩ | ⟨i, -, he⟩⟩
  · simp [hr] at hr'
  · exact .refl _
  · exact .refl _
  · exact raised_records (s.grant tr) .illegalCommand
  · exact ends_records (s := s.grant tr) he

theorem reset_historyInv : Block.reset.HistoryInv := ⟨trivial, rfl⟩

/-- Settles O53: reset starts a new history, and every other step records. -/
theorem stepKeepsTheLogALegalHistory : Obligations.StepKeepsTheLogALegalHistory := by
  intro s t hs h
  cases hr : s.resetInput with
  | false => exact (step_records hr h).historyInv hs
  | true =>
    rcases step_inv h with ⟨-, rfl⟩ | ⟨hr', -⟩ | ⟨hr', -⟩ | ⟨hr', -⟩
    · exact reset_historyInv
    all_goals simp [hr] at hr'

/-- Settles O49: what a step records, it appends to the log. -/
theorem logOnlyGrows : Obligations.LogOnlyGrows := fun _ _ hr h =>
  (step_records hr h).log_grows

end Sys2Proof.Machine

/-! ## Which command writes what (O45)

`WritesOnlyItsOwn i b b'` is the spec's list of each register's writers; every completed command keeps
to it, and changes neither the fault record nor the halt. -/

namespace Sys2Proof.Machine

/-- The fault record and the halt are the same in both blocks. -/
structure Block.SameFault (b b' : Block) : Prop where
  fault       : b'.fault = b.fault
  faultCaller : b'.faultCaller = b.faultCaller
  faultWord   : b'.faultWord = b.faultWord
  halted      : b'.halted = b.halted

/-- Every part of the block but the fault record and the log differs only where command `i` is listed
as writing it (`10_state.md` R23, R32). -/
structure WritesOnlyItsOwn (i : Instr) (b b' : Block) : Prop where
  mode : b'.mode ≠ b.mode → i = .setMode
  planeMask : b'.planeMask ≠ b.planeMask →
    (∃ m, i = .setPlaneMask m) ∨ (∃ x y c, i = .setPixel x y c) ∨ i = .clearScreen ∨ i = .setMode
  writeEnable : b'.writeEnable ≠ b.writeEnable →
    (∃ m, i = .setWriteEnable m) ∨ (∃ x y c, i = .setPixel x y c) ∨ i = .clearScreen ∨ i = .setMode
  readPlane : b'.readPlane ≠ b.readPlane →
    (∃ p, i = .setReadPlane p) ∨ (∃ x y c, i = .setPixel x y c) ∨ i = .setMode
  lut : b'.lut ≠ b.lut → (∃ p, i = .loadPalette p) ∨ i = .setMode
  lockOwner : b'.lockOwner ≠ b.lockOwner → i = .lock ∨ i = .unlock
  planes : b'.planes ≠ b.planes →
    (∃ off v, i = .fbWrite off v) ∨ (∃ x y c, i = .setPixel x y c) ∨ i = .clearScreen ∨ i = .setMode

section completes
variable {i : Instr} {s : State} {r : Response} {b : Block} {d : Draws} (h : Completes i s r b d)
include h

theorem completes_sameFault : s.block.SameFault b := by
  cases i with
  | setMode => obtain ⟨-, -, rfl, -⟩ := h; rw [setMode_eq]; exact ⟨rfl, rfl, rfl, rfl⟩
  | clearScreen =>
    obtain ⟨-, -, -, rfl, -⟩ := h
    obtain ⟨planes, he, -⟩ := clearScreen_eq s.issuer s.block
    rw [he]
    exact ⟨rfl, rfl, rfl, rfl⟩
  | setPixel x y color =>
    obtain ⟨-, -, -, -, -, rfl, -⟩ := h
    obtain ⟨planes, he, -⟩ := setPixel_eq s.issuer x.toNat y.toNat color s.block
    rw [he]
    exact ⟨rfl, rfl, rfl, rfl⟩
  | fbWrite off data =>
    obtain ⟨-, -, -, pm, we, hp, hw, -, rfl, -⟩ := h
    rw [memWrite_eq hp hw]
    exact ⟨rfl, rfl, rfl, rfl⟩
  | fbRead off => obtain ⟨-, -, -, p, -, -, rfl, -⟩ := h; exact ⟨rfl, rfl, rfl, rfl⟩
  | attrNew _ _ | attrSetFg _ _ | attrSetBg _ _ =>
    obtain ⟨-, rfl, -⟩ := h; exact ⟨rfl, rfl, rfl, rfl⟩
  | setPlaneMask _ | setWriteEnable _ | setReadPlane _ | loadPalette _ | lock | unlock =>
    obtain ⟨-, -, rfl, -⟩ := h; exact ⟨rfl, rfl, rfl, rfl⟩

theorem completes_writesOnlyItsOwn : WritesOnlyItsOwn i s.block b := by
  cases i with
  | setMode => obtain ⟨ho, -, rfl, -⟩ := h; rw [setMode_eq]; constructor <;> simp [ho]
  | clearScreen =>
    obtain ⟨ho, -, -, rfl, -⟩ := h
    obtain ⟨planes, he, -⟩ := clearScreen_eq s.issuer s.block
    rw [he]
    constructor <;> simp [ho]
  | setPixel x y color =>
    obtain ⟨ho, -, -, -, -, rfl, -⟩ := h
    obtain ⟨planes, he, -⟩ := setPixel_eq s.issuer x.toNat y.toNat color s.block
    rw [he]
    constructor <;> simp [ho]
  | fbWrite off data =>
    obtain ⟨-, -, -, pm, we, -, -, -, rfl, -⟩ := h
    constructor <;> simp
  | fbRead off => obtain ⟨-, -, -, p, -, -, rfl, -⟩ := h; constructor <;> simp
  | attrNew _ _ | attrSetFg _ _ | attrSetBg _ _ =>
    obtain ⟨-, rfl, -⟩ := h; constructor <;> simp
  | setPlaneMask _ | setWriteEnable _ | setReadPlane _ | loadPalette _ | lock | unlock =>
    obtain ⟨-, -, rfl, -⟩ := h; constructor <;> simp

end completes

/-- A command that holds or faults writes no register, plane or LUT entry. -/
theorem ends_writesOnlyItsOwn {i : Instr} {s t : State} (h : Ends i s t) :
    WritesOnlyItsOwn i s.block t.block := by
  rcases h with ⟨-, rfl⟩ | ⟨-, f, rfl⟩ | ⟨-, r, b, d, hc, rfl⟩
  · constructor <;> simp
  · constructor <;> simp
  · exact completes_writesOnlyItsOwn hc

theorem ends_sameFault_or_raised {i : Instr} {s t : State} (h : Ends i s t) :
    s.block.SameFault t.block ∨ ∃ f, t = s.raised f := by
  rcases h with ⟨-, rfl⟩ | ⟨-, hf⟩ | ⟨-, r, b, d, hc, rfl⟩
  · exact .inl ⟨rfl, rfl, rfl, rfl⟩
  · exact .inr hf
  · exact .inl (completes_sameFault hc)

/-- Settles O45: a command that ends keeps to the list of writers, and what is not a raised fault keeps
the fault record. -/
theorem stateChangesOnlyUnderItsWriters : Obligations.StateChangesOnlyUnderItsWriters := by
  intro i s t h
  have he := exec_inv h
  have hw := ends_writesOnlyItsOwn he
  refine ⟨hw.mode, fun hne => ?_, hw.planeMask, hw.writeEnable, hw.readPlane, hw.lut, hw.lockOwner,
    fun ⟨p, a, hne⟩ => hw.planes fun heq => hne ?_⟩
  · rcases ends_sameFault_or_raised he with hs | hf
    · simp [hs.fault, hs.faultCaller, hs.faultWord, hs.halted] at hne
    · exact hf
  · rw [Block.planeByte, Block.planeByte, heq]

end Sys2Proof.Machine

/-! ## The block's invariant (O52, O51, O15)

Each clause of `Block.Inv` is kept by the commands listed as writing what it speaks of, and trivially by
the others. -/

namespace Sys2Proof.Machine

/-- At reset no plane lists a byte. -/
theorem reset_plane (p : Fin 4) : Block.reset.planes[p] = [] := by simp [Block.reset]

theorem block_reset_inv : Block.reset.Inv where
  planesWf p := reset_plane p ▸ Memory.nil_wf
  otherMode _ := reset_plane
  lutSet h := nomatch h
  ownerCaller _ h := nomatch h
  halted := by decide
  faultCode := by decide
  faultCaller := rfl
  faultWord := rfl
  faultIsCaller _ h := nomatch h

/-- Settles O51: no fault, no owner, no known byte, no caller and no event at reset. -/
theorem resetMeetsTheInvariant : Obligations.ResetMeetsTheInvariant := by
  refine ⟨⟨block_reset_inv, ?_⟩, reset_historyInv⟩
  exact ⟨⟨.nil, nofun⟩, nofun, nofun, nofun, nofun⟩

/-- Settles O15: the reset record field by field; a byte of an empty plane reads as `????????`. -/
theorem resetLeavesTheResetValues : Obligations.ResetLeavesTheResetValues := by
  refine ⟨rfl, rfl, rfl, rfl, rfl, rfl, rfl, rfl, fun p off i => ?_, fun i => ?_, rfl, fun c => rfl⟩
  · have hread : Block.reset.planeByte p off = unknownByte := by
      rw [Block.planeByte, reset_plane, Memory.read_nil]
    exact hread ▸ unknownByte_getElem i i.isLt
  · simp [State.reset, Block.reset]

theorem paletteLut_allSet (payload : List Byte) (i : Fin 256) : (paletteLut payload)[i].AllSet := by
  simp [paletteLut_getElem, paletteChannel, LutEntry.AllSet]

section completes
variable {i : Instr} {s : State} {r : Response} {b : Block} {d : Draws} (h : Completes i s r b d)
include h

/-- A command that changes MODE or a plane ends in GFX640 (`43_planar_writer.md` R136). -/
theorem completes_gfx640 (hne : b.mode ≠ s.block.mode ∨ b.planes ≠ s.block.planes) :
    b.mode = .gfx640 := by
  have hw := completes_writesOnlyItsOwn h
  have hsame (hm : s.block.mode = .gfx640) (hi : i ≠ .setMode) : b.mode = .gfx640 :=
    (not_not.mp (mt hw.mode hi)).trans hm
  have hwriter : (∃ off v, i = .fbWrite off v) ∨ (∃ x y c, i = .setPixel x y c) ∨
      i = .clearScreen ∨ i = .setMode :=
    hne.elim (fun hm => .inr (.inr (.inr (hw.mode hm)))) hw.planes
  rcases hwriter with ⟨off, v, rfl⟩ | ⟨x, y, color, rfl⟩ | rfl | rfl
  · obtain ⟨-, hm, -⟩ := h; exact hsame hm nofun
  · obtain ⟨-, hm, -⟩ := h; exact hsame hm nofun
  · obtain ⟨-, hm, -⟩ := h; exact hsame hm nofun
  · obtain ⟨-, -, rfl, -⟩ := h; rw [setMode_eq]

theorem completes_planesWf (hs : s.block.planesWf) : b.planesWf := by
  by_cases heq : b.planes = s.block.planes
  · intro p
    rw [heq]
    exact hs p
  · rcases (completes_writesOnlyItsOwn h).planes heq with
      ⟨off, v, rfl⟩ | ⟨x, y, color, rfl⟩ | rfl | rfl
    · obtain ⟨-, -, hoff, pm, we, -, -, -, rfl, -⟩ := h; exact memWrite_planesWf hs hoff _ _
    · obtain ⟨-, -, hx, hy, -, rfl, -⟩ := h; exact setPixel_planesWf hs hx hy _ _
    · obtain ⟨-, -, -, rfl, -⟩ := h; exact clearScreen_planesWf hs _
    · obtain ⟨-, -, rfl, -⟩ := h; exact setMode_planesWf _ _ _

theorem completes_lutSet (hs : s.block.mode = .gfx640 → ∀ k : Fin 256, s.block.lut[k].AllSet)
    (hm : b.mode = .gfx640) (k : Fin 256) : b.lut[k].AllSet := by
  by_cases hmode : i = .setMode
  · subst hmode
    obtain ⟨-, -, rfl, -⟩ := h
    rw [setMode_eq]
    exact paletteLut_allSet _ k
  · have hw := completes_writesOnlyItsOwn h
    by_cases heq : b.lut = s.block.lut
    · rw [heq]
      exact hs (not_not.mp (mt hw.mode hmode) ▸ hm) k
    · obtain ⟨payload, rfl⟩ := (hw.lut heq).resolve_right hmode
      obtain ⟨-, -, rfl, -⟩ := h
      exact paletteLut_allSet _ k

theorem completes_ownerCaller (hi : s.issuer < Config.nCallers)
    (hs : ∀ c, s.block.lockOwner = some c → c < Config.nCallers) :
    ∀ c, b.lockOwner = some c → c < Config.nCallers := by
  by_cases heq : b.lockOwner = s.block.lockOwner
  · rwa [heq]
  · rcases (completes_writesOnlyItsOwn h).lockOwner heq with rfl | rfl
    · obtain ⟨-, -, rfl, -⟩ := h
      rintro c ⟨⟩
      exact hi
    · obtain ⟨-, -, rfl, -⟩ := h
      exact nofun

theorem completes_inv (hi : s.issuer < Config.nCallers) (hs : s.block.Inv) : b.Inv := by
  obtain ⟨hf, hfc, hfw, hh⟩ := completes_sameFault h
  refine ⟨completes_planesWf h hs.planesWf, fun hm p => ?_, completes_lutSet h hs.lutSet,
    completes_ownerCaller h hi hs.ownerCaller, ?_, ?_, ?_, ?_, ?_⟩
  · have hkeeps : ¬ (b.mode ≠ s.block.mode ∨ b.planes ≠ s.block.planes) := fun hne => by
      simp [completes_gfx640 h hne] at hm
    simp only [not_or, not_not] at hkeeps
    rw [hkeeps.2]
    exact hs.otherMode (hkeeps.1 ▸ hm) p
  · rw [hh, hf]; exact hs.halted
  · rw [hf]; exact hs.faultCode
  · rw [hfc, hh]; exact hs.faultCaller
  · rw [hfw, hh]; exact hs.faultWord
  · rw [hfc]; exact hs.faultIsCaller

end completes

theorem FaultCode.code_range (f : FaultCode) : f.code ≠ 0#4 ∧ f.code.toNat ≤ 8 := by
  cases f <;> decide

/-- A fault fills the record with one of the eight codes and halts the block (`60_exceptions.md` R146,
R151). -/
theorem raiseFault_inv {b : Block} {c : CallerId} (hc : c < Config.nCallers) (hb : b.Inv)
    (f : FaultCode) (w : Word) : (b.raiseFault f c w).Inv where
  planesWf := hb.planesWf
  otherMode := hb.otherMode
  lutSet := hb.lutSet
  ownerCaller := hb.ownerCaller
  halted := iff_of_true rfl f.code_range.1
  faultCode := f.code_range.2
  faultCaller := rfl
  faultWord := rfl
  faultIsCaller := by rintro _ ⟨⟩; exact hc

theorem ends_block_inv {i : Instr} {s t : State} (h : Ends i s t) (hi : s.issuer < Config.nCallers)
    (hs : s.block.Inv) : t.block.Inv := by
  rcases h with ⟨-, rfl⟩ | ⟨-, f, rfl⟩ | ⟨-, r, b, d, hc, rfl⟩
  · exact hs
  · exact raiseFault_inv hi hs f _
  · exact completes_inv hc hi hs

/-! ## The callers' invariant -/

/-- What the callers' invariant says of one caller. -/
structure Caller.Consistent (k : Caller) : Prop where
  responses : k.responses.length = k.index
  index     : k.index ≤ k.sequence.length
  issued    : k.issued = true → k.index < k.sequence.length

theorem idle_consistent : Caller.idle.Consistent := ⟨rfl, le_rfl, nofun⟩

theorem Caller.Consistent.restarted (k : Caller) : k.restarted.Consistent :=
  ⟨rfl, Nat.zero_le _, nofun⟩

section callers
variable {s : State} {c : CallerId} (hs : CallersInv s.callers)
include hs

theorem caller_consistent (c : CallerId) : (s.caller c).Consistent := by
  by_cases hidle : s.caller c = Caller.idle
  · rw [hidle]
    exact idle_consistent
  · have hmem := mem_callers_of_ne_idle hs.canonical.1 hidle
    exact ⟨hs.responses _ hmem, hs.index _ hmem, hs.issued _ hmem⟩

theorem caller_lt_of_ne_idle (h : s.caller c ≠ Caller.idle) : c < Config.nCallers :=
  hs.idInRange _ (mem_callers_of_ne_idle hs.canonical.1 h)

/-- A caller whose turn it is to issue is ready. -/
theorem ready_of_turn (h : s.turn = some (.issue c)) :
    (s.caller c).issued = false ∧ (s.caller c).index < (s.caller c).sequence.length :=
  Caller.ready_iff.mp ((mem_ready_iff hs.canonical.1).mp (turn_issue h))

/-- A transaction whose turn it is to run has been issued by its caller. -/
theorem issued_of_turn {t : Transaction} (h : s.turn = some (.execute t)) :
    (s.caller t.caller).issued = true :=
  (Caller.outstanding_eq_some.mp
    ((mem_outstanding_iff hs.canonical.1).mp (enabled_outstanding (turn_execute h)))).1

theorem issue_caller_lt (h : s.turn = some (.issue c)) : c < Config.nCallers :=
  caller_lt_of_ne_idle hs fun hidle => by
    simpa [hidle, Caller.idle] using (ready_of_turn hs h).2

theorem execute_caller_lt {t : Transaction} (h : s.turn = some (.execute t)) :
    t.caller < Config.nCallers :=
  caller_lt_of_ne_idle hs fun hidle => by
    simpa [hidle, Caller.idle] using issued_of_turn hs h

theorem issue_consistent (h : s.turn = some (.issue c)) :
    Caller.Consistent { s.caller c with issued := true } :=
  have hk := caller_consistent hs c
  ⟨hk.responses, hk.index, fun _ => (ready_of_turn hs h).2⟩

/-- A response keeps a caller consistent where its command was issued (`60_exceptions.md` R161). -/
theorem respond_consistent (hissued : (s.caller c).issued = true) (r : Response) :
    Caller.Consistent { s.caller c with index := (s.caller c).index + 1
                                        issued := false
                                        responses := (s.caller c).responses ++ [r] } :=
  have hk := caller_consistent hs c
  ⟨by simp [hk.responses], hk.issued hissued, nofun⟩

end callers

/-- Storing a consistent caller of the spec keeps the callers' invariant. -/
theorem CallersInv.store {m : List (Nat × Caller)} (hm : CallersInv m) {c : CallerId} {k : Caller}
    (hc : c < Config.nCallers) (hk : k.Consistent) : CallersInv (store Caller.idle m c k) where
  canonical := store_canonical hm.canonical
  idInRange e he := by
    rcases mem_store he with ⟨rfl, -⟩ | he
    · exact hc
    · exact hm.idInRange e he
  responses e he := by
    rcases mem_store he with ⟨rfl, -⟩ | he
    · exact hk.responses
    · exact hm.responses e he
  index e he := by
    rcases mem_store he with ⟨rfl, -⟩ | he
    · exact hk.index
    · exact hm.index e he
  issued e he := by
    rcases mem_store he with ⟨rfl, -⟩ | he
    · exact hk.issued
    · exact hm.issued e he

theorem restartedCallers_inv {m : List (Nat × Caller)} (hm : CallersInv m) :
    CallersInv (restartedCallers m) := by
  have hk : ∀ e ∈ restartedCallers m, e.2.Consistent := fun e he => by
    obtain ⟨k, -, hk, -⟩ := mem_restartedCallers he
    exact hk ▸ .restarted k
  refine ⟨restartedCallers_canonical hm.canonical, fun e he => ?_, fun e he => (hk e he).responses,
    fun e he => (hk e he).index, fun e he => (hk e he).issued⟩
  obtain ⟨k, hmem, -⟩ := mem_restartedCallers he
  exact hm.idInRange (e.1, k) hmem

theorem ends_callersInv {i : Instr} {s t : State} (h : Ends i s t) (hi : s.issuer < Config.nCallers)
    (hissued : (s.caller s.issuer).issued = true) (hs : CallersInv s.callers) :
    CallersInv t.callers := by
  rcases h with ⟨-, rfl⟩ | ⟨-, f, rfl⟩ | ⟨-, r, b, d, -, rfl⟩
  · exact hs
  · exact hs
  · exact hs.store hi (respond_consistent hs hissued r)

/-- Settles O52: reset, waiting, issuing, an illegal transaction and every outcome of a command keep the
block's and the callers' invariant. -/
theorem stepKeepsTheInvariant : Obligations.StepKeepsTheInvariant := by
  rintro s t ⟨hb, hc⟩ h
  rcases step_inv h with ⟨-, rfl⟩ | ⟨-, -, rfl⟩ | ⟨-, c, hturn, rfl⟩ | ⟨-, tr, hturn, hrun⟩
  · exact ⟨block_reset_inv, restartedCallers_inv hc⟩
  · exact ⟨hb, hc⟩
  · exact ⟨hb, hc.store (issue_caller_lt hc hturn) (issue_consistent hc hturn)⟩
  · have hlt := execute_caller_lt hc hturn
    rcases hrun with ⟨-, rfl⟩ | ⟨i, -, he⟩
    · exact ⟨raiseFault_inv hlt hb _ _, hc⟩
    · exact ⟨ends_block_inv he hlt hb, ends_callersInv he hlt (issued_of_turn hc hturn) hc⟩

end Sys2Proof.Machine

/-! ## Issuing and advancing (O50, O55) -/

namespace Sys2Proof.Machine

/-- A step whose turn is a caller's lets it issue. -/
theorem step_issue {s : State} {c : CallerId} (hr : s.resetInput = false)
    (h : s.turn = some (.issue c)) : step s = .next (s.issue c) := by
  simp [step, State.fetch, hr, h]

/-- A command moves no caller's record, or answers its issuer once. -/
theorem ends_callers {i : Instr} {s t : State} (h : Ends i s t) :
    t.callers = s.callers ∨ ∃ r, ∀ d, t.caller d = (s.respond r).caller d := by
  rcases h with ⟨-, rfl⟩ | ⟨-, f, rfl⟩ | ⟨-, r, b, d, -, rfl⟩
  · exact .inl rfl
  · exact .inl rfl
  · exact .inr ⟨r, fun _ => rfl⟩

/-- Settles O50: a caller moves by issuing, or by the one response to its granted command. -/
theorem stepAdvancesAtMostOneCaller : Obligations.StepAdvancesAtMostOneCaller := by
  intro s t hr h
  rcases step_inv h with ⟨hr', -⟩ | ⟨-, -, rfl⟩ | ⟨-, c, hturn, rfl⟩ | ⟨-, tr, hturn, hrun⟩
  · simp [hr] at hr'
  · exact .inl rfl
  · exact .inr (.inl ⟨c, fun hs => (ready_of_turn hs hturn).1, by simp, fun d hd => by simp [hd]⟩)
  · rcases hrun with ⟨-, rfl⟩ | ⟨i, -, he⟩
    · exact .inl rfl
    · rcases ends_callers he with hsame | ⟨r, hcaller⟩
      · exact .inl hsame
      · have hgrant : ∀ d, (s.grant tr).caller d = s.caller d := fun _ => rfl
        exact .inr (.inr ⟨tr.caller, r, fun hs => issued_of_turn hs hturn,
          by simp [hcaller, hgrant], fun d hd => by simp [hcaller, hgrant, hd]⟩)

/-- Issuing makes exactly the issuer's next command outstanding besides what was outstanding. -/
theorem mem_outstanding_issue {s : State} {c : CallerId} {cmd : Command}
    (hs : CallersInv s.callers) (hturn : s.turn = some (.issue c))
    (hcmd : (s.caller c).sequence[(s.caller c).index]? = some cmd) (u : Transaction) :
    u ∈ (s.issue c).outstanding ↔ u ∈ s.outstanding ∨ u = ⟨c, cmd⟩ := by
  have hsorted : (s.issue c).callers.Pairwise (fun e f => e.1 < f.1) :=
    (store_canonical hs.canonical).1
  obtain ⟨hissued, -⟩ := ready_of_turn hs hturn
  obtain ⟨d, command⟩ := u
  rw [mem_outstanding_iff hsorted, mem_outstanding_iff hs.canonical.1, caller_issue]
  by_cases hd : d = c
  · subst hd
    simp [Caller.outstanding, hissued, hcmd, eq_comm]
  · simp [hd]

/-- Settles O55: the step is `State.issue`, of a caller that is ready. -/
theorem issuingMakesTheNextCommandOutstanding :
    Obligations.IssuingMakesTheNextCommandOutstanding := by
  intro s c hs hr hturn
  obtain ⟨hissued, hindex⟩ := ready_of_turn hs hturn
  have hcmd := List.getElem?_eq_getElem hindex
  refine ⟨s.issue c, _, step_issue hr hturn, rfl, rfl, ?_, hcmd, ?_, by simp,
    fun d hd => by simp [hd], mem_outstanding_issue hs hturn hcmd⟩
  · simp [Caller.outstanding, hissued]
  · simp [Caller.outstanding, hcmd]

end Sys2Proof.Machine

/-! ## The log is never read (O48)

`withPast past` puts events before the log. Every operation, and so every command, commutes with it. -/

namespace Sys2Proof.Machine

/-- The block with a longer past in its log. -/
def Block.withPast (past : List Event) (b : Block) : Block := { b with log := past ++ b.log }

/-- The machine with a longer past in the log. -/
def State.withPast (past : List Event) (s : State) : State :=
  { s with block := s.block.withPast past }

/-- An outcome with a longer past in the log of its next state. -/
def resultWithPast (past : List Event) : Result → Result
  | .next s => .next (s.withPast past)
  | .fault r => .fault r
  | .refused r => .refused r

section block
variable (past : List Event) (c : CallerId) (b : Block)

@[simp] theorem withPast_mode : (b.withPast past).mode = b.mode := rfl
@[simp] theorem withPast_planeMask : (b.withPast past).planeMask = b.planeMask := rfl
@[simp] theorem withPast_writeEnable : (b.withPast past).writeEnable = b.writeEnable := rfl
@[simp] theorem withPast_readPlane : (b.withPast past).readPlane = b.readPlane := rfl
@[simp] theorem withPast_lockOwner : (b.withPast past).lockOwner = b.lockOwner := rfl
@[simp] theorem withPast_halted : (b.withPast past).halted = b.halted := rfl
@[simp] theorem withPast_planeByte (p : Fin 4) (off : Nat) :
    (b.withPast past).planeByte p off = b.planeByte p off := rfl

@[simp] theorem logEvent_withPast (e : Event) :
    (b.withPast past).logEvent e = (b.logEvent e).withPast past := by
  simp [Block.logEvent, Block.withPast]

@[simp] theorem acquire_withPast : (b.withPast past).acquire c = (b.acquire c).withPast past :=
  logEvent_withPast past { b with lockOwner := some c } _

@[simp] theorem release_withPast : (b.withPast past).release c = (b.release c).withPast past :=
  logEvent_withPast past { b with lockOwner := none } _

@[simp] theorem writePlaneMask_withPast (v : BitVec 4) :
    (b.withPast past).writePlaneMask c v = (b.writePlaneMask c v).withPast past :=
  logEvent_withPast past { b with planeMask := .set v } _

@[simp] theorem writeWriteEnable_withPast (v : BitVec 4) :
    (b.withPast past).writeWriteEnable c v = (b.writeWriteEnable c v).withPast past :=
  logEvent_withPast past { b with writeEnable := .set v } _

@[simp] theorem writeReadPlane_withPast (v : BitVec 2) :
    (b.withPast past).writeReadPlane c v = (b.writeReadPlane c v).withPast past :=
  logEvent_withPast past { b with readPlane := .set v } _

@[simp] theorem loadLut_withPast (payload : List Byte) :
    (b.withPast past).loadLut c payload = (b.loadLut c payload).withPast past :=
  logEvent_withPast past { b with lut := paletteLut payload } _

@[simp] theorem memRead_withPast (off : Nat) :
    (b.withPast past).memRead c off = ((b.memRead c off).1, (b.memRead c off).2.withPast past) := by
  cases hp : b.readPlane <;> simp [Block.memRead, hp]

@[simp] theorem memWrite_withPast (off : Nat) (v : TByte) :
    (b.withPast past).memWrite c off v = (b.memWrite c off v).withPast past := by
  cases hp : b.planeMask with
  | unset => simp [Block.memWrite, hp]
  | set pm =>
    cases hw : b.writeEnable with
    | unset => simp [Block.memWrite, hp, hw]
    | set we =>
      have hp' : (b.withPast past).planeMask = .set pm := hp
      have hw' : (b.withPast past).writeEnable = .set we := hw
      rw [memWrite_eq hp' hw', memWrite_eq hp hw]
      simp [Block.withPast]

@[simp] theorem setMode_withPast (n : Nat) :
    (b.withPast past).setMode c n = (b.setMode c n).withPast past := by
  simp [setMode_eq, Block.withPast]

@[simp] theorem pixelRound_withPast (off : Nat) (m : Byte) (color : BitVec 4) (p : BitVec 2) :
    (b.withPast past).pixelRound c off m color p = (b.pixelRound c off m color p).withPast past := by
  simp [Block.pixelRound]

@[simp] theorem setPixel_withPast (x y : Nat) (color : BitVec 4) :
    (b.withPast past).setPixel c x y color = (b.setPixel c x y color).withPast past := by
  simp [Block.setPixel]

theorem clearSweep_withPast (n : Nat) :
    (b.withPast past).clearSweep c n = (b.clearSweep c n).withPast past := by
  induction n with
  | zero => rfl
  | succ n ih => rw [Block.clearSweep, ih, memWrite_withPast, Block.clearSweep]

@[simp] theorem clearScreen_withPast :
    (b.withPast past).clearScreen c = (b.clearScreen c).withPast past := by
  simp only [clearScreen_body, clearStart, acquire_withPast, writePlaneMask_withPast,
    writeWriteEnable_withPast, clearSweep_withPast, release_withPast]

end block

section outcome
variable (past : List Event) (s : State)

@[simp] theorem withPast_block : (s.withPast past).block = s.block.withPast past := rfl
@[simp] theorem withPast_issuer : (s.withPast past).issuer = s.issuer := rfl
@[simp] theorem withPast_port : (s.withPast past).port = s.port := rfl
@[simp] theorem withPast_callers : (s.withPast past).callers = s.callers := rfl
@[simp] theorem withPast_draws : (s.withPast past).draws = s.draws := rfl
@[simp] theorem withPast_resetInput : (s.withPast past).resetInput = s.resetInput := rfl

/-! The outcomes are stated with `(rfl)`, so that `simp` rewrites with them and the kernel never compares
two CLEAR_SCREENs by running them. -/

@[simp] theorem hold_withPast : (s.withPast past).hold = resultWithPast past s.hold := (rfl)

@[simp] theorem raise_withPast (f : FaultCode) :
    (s.withPast past).raise f = resultWithPast past (s.raise f) := (rfl)

@[simp] theorem complete_withPast (r : Response) (b : Block) :
    (s.withPast past).complete r (b.withPast past) = resultWithPast past (s.complete r b) := (rfl)

/-- The commands that draw complete in a state with other counters. -/
@[simp] theorem complete_mk_withPast (r : Response) (b b' : Block) (port : Transaction)
    (callers : List (Nat × Caller)) (d : Draws) (resetInput : Bool) :
    State.complete r (b'.withPast past) ⟨b.withPast past, port, callers, d, resetInput⟩ =
      resultWithPast past (State.complete r b' ⟨b, port, callers, d, resetInput⟩) := (rfl)

end outcome

/-- Every command does the same with a longer past. -/
theorem exec_withPast (i : Instr) (s : State) (past : List Event) :
    exec i (s.withPast past) = resultWithPast past (exec i s) := by
  cases i with
  | setMode => simp [exec, execSetMode, apply_ite (resultWithPast past)]
  | clearScreen => simp [exec, execClearScreen, apply_ite (resultWithPast past)]
  | setPixel x y color => simp [exec, execSetPixel, apply_ite (resultWithPast past)]
  | setPlaneMask m => simp [exec, execSetPlaneMask, apply_ite (resultWithPast past)]
  | setWriteEnable m => simp [exec, execSetWriteEnable, apply_ite (resultWithPast past)]
  | setReadPlane p => simp [exec, execSetReadPlane, apply_ite (resultWithPast past)]
  | loadPalette payload => simp [exec, execLoadPalette, apply_ite (resultWithPast past)]
  | fbRead off => simp [exec, execFbRead, State.drawRead, apply_ite (resultWithPast past)]
  | fbWrite off data => simp [exec, execFbWrite, apply_ite (resultWithPast past)]
  | attrNew fg bg => simp [exec, execAttrNew, apply_ite (resultWithPast past)]
  | attrSetFg a c => simp [exec, execAttrSetFg, apply_ite (resultWithPast past)]
  | attrSetBg a c => simp [exec, execAttrSetBg, apply_ite (resultWithPast past)]
  | lock => simp [exec, execLock, apply_ite (resultWithPast past)]
  | unlock => simp [exec, execUnlock, apply_ite (resultWithPast past)]

/-- Settles O48: every command commutes with a longer past. -/
theorem noCommandReadsTheLog : Obligations.NoCommandReadsTheLog := by
  intro i s t past h
  have hpast := exec_withPast i s past
  rwa [h] at hpast

end Sys2Proof.Machine

/-! ## The displayed colour (O43) -/

namespace Sys2Proof.Machine

theorem codeValue_knownCode (code : BitVec 4) : codeValue (knownCode code) = some code := by
  revert code; decide

/-- A code with a `?` bit has no value. -/
theorem codeValue_of_unknown {code : Vector TBit 4} {p : Fin 4} (h : code[p] = .unknown) :
    codeValue code = none := by
  unfold codeValue
  split
  · fin_cases p <;> simp_all
  · rfl

theorem displayedColour_of_known {b : Block} {x y : Nat} {code : BitVec 4}
    (h : b.pixelCode x y = knownCode code) {r g bl : BitVec 6}
    (hlut : b.lut[(Config.pixelLutIndex code).toFin] = ⟨.set r, .set g, .set bl⟩) :
    b.displayedColour x y = some (r, g, bl) := by
  simp only [Block.displayedColour, h, codeValue_knownCode, hlut]

theorem displayedColour_of_unset {b : Block} {x y : Nat} {code : BitVec 4}
    (h : b.pixelCode x y = knownCode code)
    (hlut : ¬ b.lut[(Config.pixelLutIndex code).toFin].AllSet) : b.displayedColour x y = none := by
  simp only [Block.displayedColour, h, codeValue_knownCode]
  split
  · next hr hg hb =>
    exact absurd
      ⟨ne_of_eq_of_ne hr nofun, ne_of_eq_of_ne hg nofun, ne_of_eq_of_ne hb nofun⟩ hlut
  · rfl

theorem displayedColour_of_unknown {b : Block} {x y : Nat} {p : Fin 4}
    (h : b.pixelCodeBit x y p = .unknown) : b.displayedColour x y = none := by
  have hp : (b.pixelCode x y)[p] = .unknown := by simpa [Block.pixelCode] using h
  simp only [Block.displayedColour, codeValue_of_unknown hp]

/-- After SET_PIXEL the pixel's code is the colour (`43_planar_writer.md` R133). -/
theorem setPixel_pixelCode (c : CallerId) (x y : Nat) (color : BitVec 4) (b : Block) :
    (b.setPixel c x y color).pixelCode x y = knownCode color := by
  obtain ⟨planes, he, hread⟩ := setPixel_eq c x y color b
  have hbit (p : Fin 4) : (b.setPixel c x y color).pixelCodeBit x y p = .known (color.getLsbD p) := by
    have hbyte : (b.setPixel c x y color).planeByte p (pixelOffset x y) =
        mergedByte (b.planeByte p (pixelOffset x y)) (pixelMask x) color (planeOf p) := by
      rw [he, Block.planeByte, hread, if_pos rfl]
    simp [Block.pixelCodeBit, hbyte, mergedByte_getElem, pixelMask_getElem]
  simp only [Block.pixelCode, knownCode, hbit]

theorem setPixel_lut (c : CallerId) (x y : Nat) (color : BitVec 4) (b : Block) :
    (b.setPixel c x y color).lut = b.lut := by
  obtain ⟨planes, he, -⟩ := setPixel_eq c x y color b
  rw [he]

/-- Settles O43: SET_PIXEL makes the code its colour and keeps the LUT, so the third clause is the
first after it. -/
theorem displayedColourIsTheLutEntry : Obligations.DisplayedColourIsTheLutEntry := by
  refine ⟨fun b x y code hcode => ⟨fun r g bl => displayedColour_of_known hcode,
    displayedColour_of_unset hcode⟩, fun b x y p => displayedColour_of_unknown, ?_⟩
  intro x y color s hh ho hm hx hy r g bl hlut
  refine ⟨_, execSetPixel_completes hh ho hm hx hy color, ?_⟩
  exact displayedColour_of_known (setPixel_pixelCode _ _ _ _ _) (by rw [setPixel_lut, hlut])

end Sys2Proof.Machine

/-! ## The lock in a legal history (O54)

While a caller owns the lock, the next legal event is its own, and any but its Release leaves it the
owner. -/

namespace Sys2Proof.Machine

theorem replay_acquire_lockOwner (v : View) (es : List Event) (c : CallerId) :
    (v.replay (es ++ [.acquire c])).lockOwner = some c := by
  rw [replay_append]
  rfl

section owned
variable {v : View} {c : CallerId} (ho : v.lockOwner = some c)
include ho

/-- The owner alone makes events (`20_memory.md` R57). -/
theorem legal_event_of_owner {e : Event} (h : v.Legal e) : e.caller = c := by
  have same {d : CallerId} (hd : v.lockOwner = some d) : d = c := Option.some.inj (hd.symm.trans ho)
  cases e with
  | acquire d => exact absurd (ho.symm.trans h) nofun
  | release d | regWrite d w | pal d | mode d => exact same h
  | rd d p off t | wr d off t pm we => exact same h.1

/-- Only a Release ends an ownership. -/
theorem apply_lockOwner_of_owner {e : Event} (h : v.Legal e) (hne : e ≠ .release c) :
    (v.apply e).lockOwner = some c := by
  have hcaller := legal_event_of_owner ho h
  cases e with
  | acquire d => exact congrArg some hcaller
  | release d => exact absurd (congrArg Event.release hcaller) hne
  | regWrite d w => cases w <;> exact ho
  | rd d p off t | wr d off t pm we | pal d | mode d => exact ho

/-- A legal history from an owned lock belongs to the owner up to its Release. -/
theorem legalHistory_caller_of_owner {es : List Event} (h : v.LegalHistory es)
    (hrel : Event.release c ∉ es) : ∀ e ∈ es, e.caller = c := by
  induction es generalizing v with
  | nil => exact nofun
  | cons e es ih =>
    obtain ⟨hlegal, hrest⟩ := h
    obtain ⟨hne, hnotin⟩ := List.ne_and_not_mem_of_not_mem_cons hrel
    have howner := apply_lockOwner_of_owner ho hlegal hne.symm
    exact List.forall_mem_cons.mpr ⟨legal_event_of_owner ho hlegal, ih howner hrest hnotin⟩

end owned

/-- Settles O54: the Acquire makes its caller the owner, and the events inside are a legal history from
there. -/
theorem noForeignEventWhileLocked : Obligations.NoForeignEventWhileLocked := by
  intro b before inside rest c hb hlog hrel
  have hlegal := hb.legal
  rw [hlog] at hlegal
  obtain ⟨huntil, -⟩ := legalHistory_append.mp hlegal
  obtain ⟨-, hinside⟩ := legalHistory_append.mp huntil
  exact legalHistory_caller_of_owner (replay_acquire_lockOwner _ before c) hinside hrel

end Sys2Proof.Machine

/-! ## The byte transport (O4) -/

namespace Sys2Proof

/-- The four bytes of a word, put together again, give the word (`20_memory.md` R50). -/
theorem wordOfBytes_extract (w : Word) :
    wordOfBytes (w.extractLsb' 0 8) (w.extractLsb' 8 8) (w.extractLsb' 16 8) (w.extractLsb' 24 8) =
      w := by
  have join (lo : Nat) {len : Nat} :
      w.extractLsb' (lo + 8) len ++ w.extractLsb' lo 8 = w.extractLsb' lo (len + 8) :=
    BitVec.extractLsb'_append_extractLsb'_eq_extractLsb' rfl
  rw [wordOfBytes, join 16, join 8, join 0]
  exact BitVec.extractLsb'_eq_self

/-- Settles O4: the bytes give the word back, and the decoder's first case needs four of them. -/
theorem byteTransportCarriesTheTransaction : Obligations.ByteTransportCarriesTheTransaction := by
  constructor
  · intro w payload
    exact congrArg (decode · payload) (wordOfBytes_extract w)
  · intro bs hlen
    match bs with
    | [] | [_] | [_, _] | [_, _, _] => rfl
    | _ :: _ :: _ :: _ :: _ => simp at hlen; omega

end Sys2Proof

/-! ## A step runs the granted command (O7) -/

namespace Sys2Proof.Machine

theorem step_execute {s : State} {t : Transaction} {i : Instr} (hr : s.resetInput = false)
    (hturn : s.turn = some (.execute t))
    (hdecode : decode t.command.word t.command.payload = .ok i) : step s = exec i (s.grant t) := by
  simp [step, State.fetch, hr, hturn, hdecode]

/-- Settles O7: `State.grant` is the transaction on the port and the turn counted. -/
theorem stepRunsTheDecodedCommand : Obligations.StepRunsTheDecodedCommand :=
  fun _ _ _ => step_execute

end Sys2Proof.Machine

/-! ## The frame buffer outside GFX640 (O22) -/

namespace Sys2Proof.Machine

section notInMode
variable {s : State} (hh : s.block.halted = false) (hm : s.block.mode ≠ .gfx640)
include hh hm

theorem exec_fbRead_notInMode (ho : s.block.lockOwner = some s.issuer) (off : BitVec 17) :
    exec (.fbRead off) s = .next (s.raised .notInMode) := by
  simp [exec, execFbRead, State.raise, hh, ho, hm]

theorem exec_fbWrite_notInMode (ho : s.block.lockOwner = some s.issuer) (off : BitVec 17)
    (data : Byte) : exec (.fbWrite off data) s = .next (s.raised .notInMode) := by
  simp [exec, execFbWrite, State.raise, hh, ho, hm]

theorem exec_setPixel_notInMode (ho : s.block.lockOwner = none) (x : BitVec 10) (y : BitVec 9)
    (color : BitVec 4) : exec (.setPixel x y color) s = .next (s.raised .notInMode) := by
  simp [exec, execSetPixel, State.raise, hh, ho, hm]

theorem exec_clearScreen_notInMode (ho : s.block.lockOwner = none) :
    exec .clearScreen s = .next (s.raised .notInMode) := by
  simp [exec, execClearScreen, State.raise, hh, ho, hm]

end notInMode

/-- Settles O22: the mode check comes right after the lock check, and OTHER is not GFX640. -/
theorem otherModeRaisesNotInMode : Obligations.OtherModeRaisesNotInMode := by
  intro s hh hother
  have hm : s.block.mode ≠ .gfx640 := ne_of_eq_of_ne hother nofun
  exact ⟨fun ho => ⟨exec_fbRead_notInMode hh hm ho, exec_fbWrite_notInMode hh hm ho⟩,
    fun ho => ⟨exec_setPixel_notInMode hh hm ho, exec_clearScreen_notInMode hh hm ho⟩⟩

end Sys2Proof.Machine

/-! ## The encoding (O1, O2, O3, O6)

A legal transaction matches the table row of its opcode, and a format's operand fields and reserved
bits together are bits 27:0 of its words. So a legal word is its opcode's number followed by its
operands' number. -/

namespace Sys2Proof

/-- The opcode map by number (`30_encoding.md` R66). -/
theorem opcodeOf_eq_some_iff {v : BitVec 4} {op : Opcode} :
    opcodeOf v = some op ↔ v.toNat = op.number := by
  revert v
  cases op <;> decide

theorem opcodeOf_eq_none {v : BitVec 4} (h : v = 0x0#4 ∨ v = 0xF#4) : opcodeOf v = none := by
  obtain rfl | rfl := h <;> rfl

/-- A transaction is illegal exactly when it decodes to no command. -/
theorem decode_eq_error_iff {w : Word} {p : List Byte} :
    (∃ e, decode w p = .error e) ↔ ∀ i, decode w p ≠ .ok i := by
  cases decode w p <;> simp

/-! ### From a command to its word -/

/-- Every instruction's word matches its row of the opcode table. -/
theorem encodeWord_matches_row (i : Instr) : Laws.TableRow.Statement i :=
  match i with
  | .setMode => Laws.TableRow.setMode
  | .clearScreen => Laws.TableRow.clearScreen
  | .setPixel x y color => Laws.TableRow.setPixel x y color
  | .setPlaneMask mask => Laws.TableRow.setPlaneMask mask
  | .setWriteEnable mask => Laws.TableRow.setWriteEnable mask
  | .setReadPlane plane => Laws.TableRow.setReadPlane plane
  | .loadPalette payload => Laws.TableRow.loadPalette payload
  | .fbRead off => Laws.TableRow.fbRead off
  | .fbWrite off data => Laws.TableRow.fbWrite off data
  | .attrNew fg bg => Laws.TableRow.attrNew fg bg
  | .attrSetFg attr color => Laws.TableRow.attrSetFg attr color
  | .attrSetBg attr color => Laws.TableRow.attrSetBg attr color
  | .lock => Laws.TableRow.lock
  | .unlock => Laws.TableRow.unlock

theorem wellFormed_iff_length_encodePayload (i : Instr) :
    i.wellFormed = true ↔ (encodePayload i).length = i.opcode.payloadLength := by
  cases i <;> simp [Instr.wellFormed, encodePayload, Instr.opcode, Opcode.payloadLength]

/-- A field of an instruction's word is read off the numbers of its opcode and its operands. -/
theorem field_encodeWord {i : Instr} {hi lo : Nat} {v : BitVec (hi - lo + 1)}
    (h : (i.opcode.number * 2 ^ 28 + i.operandsNumber) / 2 ^ lo % 2 ^ (hi - lo + 1) = v.toNat) :
    field (encodeWord i) hi lo = v :=
  BitVec.eq_of_toNat_eq (by rw [field_toNat, encodeWord_toNat, h])

/-- Operand assembly takes every operand out of an instruction's word as it went in. -/
theorem assemble_encode (i : Instr) :
    i.opcode.assemble (encodeWord i) (encodePayload i) = i := by
  cases i with
  | setMode | clearScreen | loadPalette | lock | unlock => rfl
  | setPixel x y color =>
    simp only [Instr.opcode, Opcode.assemble, Instr.setPixel.injEq]
    refine ⟨field_encodeWord ?_, field_encodeWord ?_, field_encodeWord ?_⟩ <;>
      simp only [Instr.opcode, Opcode.number, Instr.operandsNumber] <;> omega
  | setPlaneMask v | setWriteEnable v | setReadPlane v | fbRead v =>
    refine congrArg _ (field_encodeWord ?_)
    simp only [Instr.opcode, Opcode.number, Instr.operandsNumber]
    omega
  | fbWrite a b | attrNew a b | attrSetFg a b | attrSetBg a b =>
    refine congrArg₂ _ (field_encodeWord ?_) (field_encodeWord ?_) <;>
      simp only [Instr.opcode, Opcode.number, Instr.operandsNumber] <;> omega

/-- Settles O1: an instruction's word has its opcode and no reserved bit, its payload the opcode's
length, and its fields are its operands. -/
theorem decodeOfEncodeGivesTheCommand : Obligations.DecodeOfEncodeGivesTheCommand := by
  intro i hwf
  obtain ⟨row, hmem, hop, hmatch⟩ := encodeWord_matches_row i
  obtain ⟨hopcode, hreserved⟩ := (row_match hmem _).mp hmatch
  rw [hop] at hopcode hreserved
  exact decode_eq_ok_iff.mpr ⟨i.opcode, hopcode, hreserved,
    (wellFormed_iff_length_encodePayload i).mp hwf, (assemble_encode i).symm⟩

/-! ### From a word to its command -/

@[simp] theorem opcode_assemble (op : Opcode) (w : Word) (p : List Byte) :
    (op.assemble w p).opcode = op := by
  cases op <;> rfl

theorem encodePayload_assemble {op : Opcode} {p : List Byte} (h : p.length = op.payloadLength)
    (w : Word) : encodePayload (op.assemble w p) = p := by
  cases op with
  | loadPalette => rfl
  | _ => exact (List.eq_nil_of_length_eq_zero h).symm

/-- With no reserved bit set, the operand fields are all there is to bits 27:0: in each format
(`30_encoding.md` R67) the fields and the reserved runs add up to them. -/
theorem operandsNumber_assemble {op : Opcode} {w : Word} (h : w &&& op.reserved = 0#32)
    (p : List Byte) : (op.assemble w p).operandsNumber = w.toNat % 2 ^ 28 := by
  cases op with
  | setMode | clearScreen | loadPalette | lock | unlock => exact ((reserved_none w).mp h).symm
  | setPixel | setPlaneMask | setWriteEnable | setReadPlane | fbRead | fbWrite | attrNew | attrSetFg
  | attrSetBg =>
    simp only [Opcode.reserved, reserved_pix, reserved_mask, reserved_plane, reserved_rd,
      reserved_wr, reserved_attr, reserved_nib] at h
    simp only [Opcode.assemble, Instr.operandsNumber, field_toNat]
    omega

theorem encodeWord_assemble {op : Opcode} {w : Word} (hop : opcodeOf (field w 31 28) = some op)
    (hreserved : w &&& op.reserved = 0#32) (p : List Byte) : encodeWord (op.assemble w p) = w := by
  apply BitVec.eq_of_toNat_eq
  have hnumber := opcodeOf_eq_some_iff.mp hop
  have hw := w.isLt
  rw [field_toNat] at hnumber
  rw [encodeWord_toNat, opcode_assemble, operandsNumber_assemble hreserved, ← hnumber]
  omega

/-- Settles O2: the command is the one its opcode assembles, and every bit of the word is in the
opcode, in a field or reserved. -/
theorem encodeOfDecodeGivesTheTransaction : Obligations.EncodeOfDecodeGivesTheTransaction := by
  intro w p i h
  obtain ⟨op, hop, hreserved, hlength, rfl⟩ := decode_eq_ok_iff.mp h
  have hpayload := encodePayload_assemble hlength w
  refine ⟨?_, encodeWord_assemble hop hreserved p, hpayload⟩
  rw [wellFormed_iff_length_encodePayload, hpayload, opcode_assemble, hlength]

/-! ### The opcode table -/

theorem exists_row (op : Opcode) : ∃ row ∈ opcodeTable, row.opcode = op := by
  cases op <;> decide

theorem opcodeOf_pattern : ∀ row ∈ opcodeTable,
    opcodeOf (field row.pattern 31 28) = some row.opcode := by
  decide

theorem row_eq_of_opcode_eq : ∀ row ∈ opcodeTable, ∀ row' ∈ opcodeTable,
    row.opcode = row'.opcode → row = row' := by
  decide

/-- Settles O3: a word matches a row when it has its opcode and no reserved bit, and each opcode has
one row. -/
theorem decodesExactlyTheTableRows : Obligations.DecodesExactlyTheTableRows := by
  refine ⟨fun w p row hrow hmatch hlength => ?_, fun w p hnone => ?_,
    fun w row hrow row' hrow' hmatch hmatch' => ?_⟩
  · obtain ⟨hop, hreserved⟩ := (row_match hrow w).mp hmatch
    exact decode_eq_ok_iff.mpr ⟨row.opcode, hop, hreserved, hlength, rfl⟩
  · refine decode_eq_error_iff.mpr fun i hi => ?_
    obtain ⟨op, hop, hreserved, hlength, -⟩ := decode_eq_ok_iff.mp hi
    obtain ⟨row, hrow, rfl⟩ := exists_row op
    exact hnone row hrow ⟨(row_match hrow w).mpr ⟨hop, hreserved⟩, hlength⟩
  · obtain ⟨hop, -⟩ := (row_match hrow w).mp hmatch
    obtain ⟨hop', -⟩ := (row_match hrow' w).mp hmatch'
    exact row_eq_of_opcode_eq row hrow row' hrow' (Option.some.inj (hop.symm.trans hop'))

/-! ### Illegal transactions -/

/-- The reserved opcodes 0x0 and 0xF are illegal whatever the payload (`30_encoding.md` R75). -/
theorem decode_reservedOpcode {w : Word} (h : field w 31 28 = 0x0#4 ∨ field w 31 28 = 0xF#4)
    (p : List Byte) : ∃ e, decode w p = .error e :=
  ⟨.reservedOpcode, by rw [decode, opcodeOf_eq_none h]⟩

/-- A word with a row's opcode is illegal when it fails the row's mask and match, or its payload has
another length than the row's (`30_encoding.md` R76, R77). -/
theorem decode_error_of_row {w : Word} {p : List Byte} {row : Row} (hrow : row ∈ opcodeTable)
    (hfield : field w 31 28 = field row.pattern 31 28)
    (hbad : w &&& row.mask ≠ row.pattern ∨ p.length ≠ row.opcode.payloadLength) :
    ∃ e, decode w p = .error e := by
  refine decode_eq_error_iff.mpr fun i hi => ?_
  obtain ⟨op, hop, hreserved, hlength, -⟩ := decode_eq_ok_iff.mp hi
  have hrowop : opcodeOf (field w 31 28) = some row.opcode := hfield ▸ opcodeOf_pattern row hrow
  obtain rfl : row.opcode = op := Option.some.inj (hrowop.symm.trans hop)
  obtain hmask | hpayload := hbad
  · exact hmask ((row_match hrow w).mpr ⟨hop, hreserved⟩)
  · exact hpayload hlength

end Sys2Proof

namespace Sys2Proof.Machine

theorem step_execute_illegal {s : State} {t : Transaction} (hr : s.resetInput = false)
    (hturn : s.turn = some (.execute t))
    (hdecode : ∃ e, decode t.command.word t.command.payload = .error e) :
    step s = .next ((s.grant t).raised .illegalCommand) := by
  obtain ⟨e, he⟩ := hdecode
  simp [step, State.fetch, hr, hturn, he]

theorem exec_loadPalette_illegalCommand {s : State} {payload : List Byte}
    (hh : s.block.halted = false) (hlength : payload.length ≠ 768) :
    exec (.loadPalette payload) s = .next (s.raised .illegalCommand) := by
  simp [exec, execLoadPalette, State.raise, Config.paletteBytes, hh, hlength]

/-- Settles O6: each of these transactions decodes to no command, and a step that grants such a
transaction raises ILLEGAL_COMMAND with it on the port. -/
theorem illegalTransactionRaisesIllegalCommand :
    Obligations.IllegalTransactionRaisesIllegalCommand := by
  refine ⟨fun s t hr hturn hillegal => step_execute_illegal hr hturn ?_,
    fun payload => decode_reservedOpcode (.inl rfl) payload,
    fun s payload => exec_loadPalette_illegalCommand⟩
  obtain hzero | hones | ⟨row, hrow, hfield, hbad⟩ := hillegal
  · exact decode_reservedOpcode (.inl hzero) _
  · exact decode_reservedOpcode (.inr hones) _
  · exact decode_error_of_row hrow hfield hbad

end Sys2Proof.Machine

/-! ## The colour commands (O23 to O27) -/

namespace Sys2Proof

/-- A word with an opcode and one of its reserved bits is illegal (`30_encoding.md` R76). -/
theorem reservedBitsRefused_of_opcode {v : BitVec 4} {op : Opcode} (hop : opcodeOf v = some op) :
    ReservedBitsRefused v op.reserved := by
  rintro w payload rfl hbits
  simp [decode, hop, hbits]

/-- LOAD_PALETTE takes a payload of 768 bytes and no other (`30_encoding.md` R77). -/
theorem decode_loadPalette_payloadLength {w : Word} {payload : List Byte}
    (hop : field w 31 28 = 0x7#4) (hlen : payload.length ≠ 768) :
    ∃ e, decode w payload = .error e := by
  obtain ⟨row, hrow, hopcode⟩ := exists_row .loadPalette
  have hpattern : ∀ row ∈ opcodeTable, row.opcode = .loadPalette →
      field row.pattern 31 28 = 0x7#4 := by decide
  refine decode_error_of_row hrow (hop.trans (hpattern row hrow hopcode).symm) (.inr ?_)
  rwa [hopcode]

end Sys2Proof

namespace Sys2Proof.Machine

/-! ### Attribute bytes -/

/-- Settles O23: the packed byte is the background code followed by the foreground code. -/
theorem attrNewPacksTheCodes : Obligations.AttrNewPacksTheCodes := by
  refine ⟨reservedBitsRefused_of_opcode (op := .attrNew) rfl, fun fg bg s => ⟨rfl, fun hh => ?_⟩⟩
  rw [← attrByte_eq]
  exact execAttrNew_completes hh fg bg

/-- Settles O24: the new byte is the old high nibble followed by the code. -/
theorem attrSetFgReplacesTheLowNibble : Obligations.AttrSetFgReplacesTheLowNibble := by
  refine ⟨reservedBitsRefused_of_opcode (op := .attrSetFg) rfl, fun attr c s => ⟨rfl, fun hh => ?_⟩⟩
  rw [← attrWithFg_eq]
  exact execAttrSetFg_completes hh attr c

/-- Settles O25: the new byte is the code followed by the old low nibble. -/
theorem attrSetBgReplacesTheHighNibble : Obligations.AttrSetBgReplacesTheHighNibble := by
  refine ⟨reservedBitsRefused_of_opcode (op := .attrSetBg) rfl, fun attr c s => ⟨rfl, fun hh => ?_⟩⟩
  rw [← attrWithBg_eq]
  exact execAttrSetBg_completes hh attr c

/-! ### Palettes -/

section loadPalette
variable {s : State} {payload : List Byte} (hh : s.block.halted = false)
  (hlen : payload.length = 768)
include hh hlen

theorem exec_loadPalette_notOwner (ho : s.block.lockOwner ≠ some s.issuer) :
    exec (.loadPalette payload) s = .next (s.raised .notOwner) := by
  simp [exec, execLoadPalette, State.raise, Config.paletteBytes, hh, hlen, ho]

theorem exec_loadPalette_paletteRange (ho : s.block.lockOwner = some s.issuer)
    (hbig : ∃ v ∈ payload, 63 < v.toNat) :
    exec (.loadPalette payload) s = .next (s.raised .paletteRange) := by
  have hrange : paletteOutOfRange payload = true := (paletteOutOfRange_iff payload).mpr hbig
  simp [exec, execLoadPalette, State.raise, Config.paletteBytes, hh, hlen, ho, hrange]

end loadPalette

/-- A channel of the LUT is its whole payload byte where that is at most 63 (`40_color_model.md`
R91). -/
theorem paletteChannel_eq_set {payload : List Byte} (hle : ∀ v ∈ payload, v.toNat ≤ 63) {i k : Nat}
    (hk : 3 * i + k < payload.length) :
    ∃ v, paletteChannel payload i k = .set v ∧ v.toNat = payload[3 * i + k].toNat := by
  refine ⟨payload[3 * i + k].setWidth 6, ?_, ?_⟩
  · rw [paletteChannel, List.getD_eq_getElem _ _ hk]
  · have hbyte := hle _ (List.getElem_mem hk)
    rw [BitVec.toNat_setWidth, Nat.mod_eq_of_lt (by omega)]

/-- An entry of the LUT is three payload bytes in a row (`20_memory.md` R50). -/
theorem paletteLut_eq_bytes {payload : List Byte} (hlen : payload.length = 768)
    (hle : ∀ v ∈ payload, v.toNat ≤ 63) (i : Fin 256) :
    ∃ r g b : BitVec 6, (paletteLut payload)[i] = ⟨.set r, .set g, .set b⟩ ∧
      r.toNat = (payload[3 * i.val]'(by omega)).toNat ∧
      g.toNat = (payload[3 * i.val + 1]'(by omega)).toNat ∧
      b.toNat = (payload[3 * i.val + 2]'(by omega)).toNat := by
  obtain ⟨r, hr, hrbyte⟩ := paletteChannel_eq_set hle (i := i) (k := 0) (by omega)
  obtain ⟨g, hg, hgbyte⟩ := paletteChannel_eq_set hle (i := i) (k := 1) (by omega)
  obtain ⟨b, hb, hbbyte⟩ := paletteChannel_eq_set hle (i := i) (k := 2) (by omega)
  refine ⟨r, g, b, ?_, hrbyte, hgbyte, hbbyte⟩
  rw [Fin.getElem_fin, paletteLut_getElem payload i i.isLt, hr, hg, hb]

/-- Settles O26: past the checks the LUT is `paletteLut payload`. -/
theorem loadPaletteReplacesTheLut : Obligations.LoadPaletteReplacesTheLut := by
  refine ⟨reservedBitsRefused_of_opcode (op := .loadPalette) rfl,
    fun _ _ => decode_loadPalette_payloadLength, fun _ => rfl, fun payload hlen s hh => ?_⟩
  refine ⟨exec_loadPalette_notOwner hh hlen, exec_loadPalette_paletteRange hh hlen,
    fun ho hle => ⟨paletteLut payload, ?_, paletteLut_eq_bytes hlen hle⟩⟩
  exact execLoadPalette_completes hh hlen ho (paletteOutOfRange_eq_false hle)

/-- Settles O27: the length and the range of the palette's 768 widened 6-bit values. -/
theorem defaultPaletteIsAPalette : Obligations.DefaultPaletteIsAPalette :=
  ⟨defaultPalette_length, fun _ => defaultPalette_le⟩

/-! ## The commands that store to no plane (O46) -/

/-- Settles O46: these commands are not among the listed writers of MODE and the planes. -/
theorem nonStoringCommandsKeepEveryByte : Obligations.NonStoringCommandsKeepEveryByte := by
  intro i s t h hi
  have hwrites := ends_writesOnlyItsOwn (exec_inv h)
  have hnotWriter : ¬ ((∃ off v, i = .fbWrite off v) ∨ (∃ x y c, i = .setPixel x y c) ∨
      i = .clearScreen ∨ i = .setMode) := by
    rcases hi with ⟨_, _, rfl⟩ | ⟨_, _, rfl⟩ | ⟨_, _, rfl⟩ | ⟨_, rfl⟩ | ⟨_, rfl⟩ | ⟨_, rfl⟩ |
      ⟨_, rfl⟩ | ⟨_, rfl⟩ | rfl | rfl <;> simp
  have hmode : t.block.mode = s.block.mode :=
    not_not.mp fun hne => hnotWriter (.inr (.inr (.inr (hwrites.mode hne))))
  have hplanes : t.block.planes = s.block.planes := not_not.mp (mt hwrites.planes hnotWriter)
  exact ⟨hmode, fun p a => by rw [Block.planeByte, Block.planeByte, hplanes]⟩

end Sys2Proof.Machine

/-! ## The register layer (O20, O28 to O33)

The commands of R100 check the lock before anything else. Past the checks each is one operation on the
block, so its effect is that operation's. -/

namespace Sys2Proof.Machine

/-! ### The lock check -/

/-- The primitive commands and UNLOCK: the ones whose caller must hold the lock (`41_register_layer.md`
R100, `42_device_lock.md` R118). -/
def needsLock : Instr → Bool
  | .setPlaneMask _ | .setWriteEnable _ | .setReadPlane _ | .loadPalette _ | .fbRead _
  | .fbWrite _ _ | .unlock => true
  | .setMode | .clearScreen | .setPixel _ _ _ | .attrNew _ _ | .attrSetFg _ _ | .attrSetBg _ _
  | .lock => false

theorem exec_notOwner {s : State} {i : Instr} (hi : needsLock i = true) (hwf : i.wellFormed = true)
    (hh : s.block.halted = false) (ho : s.block.lockOwner ≠ some s.issuer) :
    exec i s = .next (s.raised .notOwner) := by
  cases i with
  | setPlaneMask m => simp [exec, execSetPlaneMask, State.raise, hh, ho]
  | setWriteEnable m => simp [exec, execSetWriteEnable, State.raise, hh, ho]
  | setReadPlane p => simp [exec, execSetReadPlane, State.raise, hh, ho]
  | fbRead off => simp [exec, execFbRead, State.raise, hh, ho]
  | fbWrite off data => simp [exec, execFbWrite, State.raise, hh, ho]
  | unlock => simp [exec, execUnlock, State.raise, hh, ho]
  | loadPalette payload =>
    have hlen : payload.length = 768 := by simpa [Instr.wellFormed, Config.paletteBytes] using hwf
    exact exec_loadPalette_notOwner hh hlen ho
  | setMode | clearScreen | setPixel _ _ _ | attrNew _ _ | attrSetFg _ _ | attrSetBg _ _ | lock =>
    simp [needsLock] at hi

/-- Settles O20: each of the seven needs the lock, and is well formed whatever its operands but for
the payload's length. -/
theorem notOwnerIsRaisedFirst : Obligations.NotOwnerIsRaisedFirst := by
  intro s hh ho
  exact ⟨fun _ => exec_notOwner rfl rfl hh ho, fun _ => exec_notOwner rfl rfl hh ho,
    fun _ => exec_notOwner rfl rfl hh ho, fun _ => exec_notOwner rfl rfl hh ho,
    fun _ _ => exec_notOwner rfl rfl hh ho,
    fun _ hlen => exec_notOwner rfl (beq_iff_eq.mpr hlen) hh ho, exec_notOwner rfl rfl hh ho⟩

/-! ### The register writes -/

/-- Settles O28: past the lock check the block is `Block.writePlaneMask`. -/
theorem setPlaneMaskWritesPlaneMask : Obligations.SetPlaneMaskWritesPlaneMask :=
  ⟨reservedBitsRefused_of_opcode (op := .setPlaneMask) rfl, fun mask _ =>
    ⟨rfl, exec_notOwner rfl rfl, fun hh ho => execSetPlaneMask_completes hh ho mask⟩⟩

/-- Settles O29: past the lock check the block is `Block.writeWriteEnable`. -/
theorem setWriteEnableWritesWriteEnable : Obligations.SetWriteEnableWritesWriteEnable :=
  ⟨reservedBitsRefused_of_opcode (op := .setWriteEnable) rfl, fun mask _ =>
    ⟨rfl, exec_notOwner rfl rfl, fun hh ho => execSetWriteEnable_completes hh ho mask⟩⟩

/-- Settles O30: past the lock check the block is `Block.writeReadPlane`. -/
theorem setReadPlaneWritesReadPlane : Obligations.SetReadPlaneWritesReadPlane :=
  ⟨reservedBitsRefused_of_opcode (op := .setReadPlane) rfl, fun plane _ =>
    ⟨rfl, exec_notOwner rfl rfl, fun hh ho => execSetReadPlane_completes hh ho plane⟩⟩

/-! ### The frame-buffer accesses -/

/-- A bit leaves the block as it is known, and as drawn where it is `?` (`20_memory.md` R52). -/
theorem resolve_bit (t : TByte) (drawn : Byte) (i : Fin 8) :
    (∀ b, t[i] = .known b → (TByte.resolve t drawn)[i] = b) ∧
      (t[i] = .unknown → (TByte.resolve t drawn)[i] = drawn[i]) := by
  simp only [Fin.getElem_fin, resolve_getElem]
  exact ⟨fun b hb => by rw [hb, TBit.resolve], fun hu => by rw [hu, TBit.resolve]⟩

/-- Every byte after FB_WRITE's MemWrite, the forced byte being 0x00 (`10_state.md` R33,
`20_memory.md` R48). -/
theorem memWrite_ofByte_planeByte {b : Block} {pm we : BitVec 4} (hp : b.planeMask = .set pm)
    (hw : b.writeEnable = .set we) (c : CallerId) (off : Nat) (data : Byte) (p : Fin 4) (a : Nat) :
    (b.memWrite c off (TByte.ofByte data)).planeByte p a =
      if a = off ∧ pm[p] = true then
        TByte.ofByte (if we[p] = true then 0x00#8 else data)
      else b.planeByte p a := by
  rw [memWrite_planeByte hp hw, forcedByte_eq, apply_ite TByte.ofByte]
  simp only [BitVec.getLsbD_eq_getElem p.isLt, Fin.getElem_fin, and_comm]

theorem offOutOfWindow_iff (off : Nat) : offOutOfWindow off = true ↔ 76800 ≤ off :=
  decide_eq_true_iff

section access
variable {s : State} {off : BitVec 17} (hh : s.block.halted = false)
  (ho : s.block.lockOwner = some s.issuer) (hm : s.block.mode = .gfx640)
include hh ho hm

theorem exec_fbRead_fbRange (hoff : 76800 ≤ off.toNat) :
    exec (.fbRead off) s = .next (s.raised .fbRange) := by
  simp [exec, execFbRead, State.raise, offOutOfWindow_iff, hh, ho, hm, hoff]

theorem exec_fbRead_regUnset (hoff : off.toNat < 76800) (hp : s.block.readPlane = .unset) :
    exec (.fbRead off) s = .next (s.raised .regUnset) := by
  simp [exec, execFbRead, State.raise, offOutOfWindow_iff, hh, ho, hm, hoff.not_ge, hp]

theorem exec_fbWrite_fbRange (hoff : 76800 ≤ off.toNat) (data : Byte) :
    exec (.fbWrite off data) s = .next (s.raised .fbRange) := by
  simp [exec, execFbWrite, State.raise, offOutOfWindow_iff, hh, ho, hm, hoff]

theorem exec_fbWrite_regUnset (hoff : off.toNat < 76800)
    (hunset : s.block.planeMask = .unset ∨ s.block.writeEnable = .unset) (data : Byte) :
    exec (.fbWrite off data) s = .next (s.raised .regUnset) := by
  simp [exec, execFbWrite, State.raise, offOutOfWindow_iff, hh, ho, hm, hoff.not_ge, hunset]

end access

/-- Settles O31: past the checks the response is the plane's byte with its `?` bits drawn. -/
theorem fbReadReturnsThePlaneByte : Obligations.FbReadReturnsThePlaneByte := by
  refine ⟨reservedBitsRefused_of_opcode (op := .fbRead) rfl, fun _ => rfl, fun off s hh =>
    ⟨exec_notOwner rfl rfl hh, fun ho hm => exec_fbRead_notInMode hh hm ho off,
      exec_fbRead_fbRange hh, exec_fbRead_regUnset hh, fun p ho hm hoff hp => ?_⟩⟩
  exact ⟨_, execFbRead_completes hh ho hm hoff hp, resolve_bit _ _⟩

/-- Settles O32: past the checks the planes are those MemWrite leaves. -/
theorem fbWriteStoresThroughTheMasks : Obligations.FbWriteStoresThroughTheMasks := by
  refine ⟨reservedBitsRefused_of_opcode (op := .fbWrite) rfl, fun _ _ => rfl, fun off data s hh =>
    ⟨exec_notOwner rfl rfl hh, fun ho hm => exec_fbWrite_notInMode hh hm ho off data,
      fun ho hm hoff => exec_fbWrite_fbRange hh ho hm hoff data,
      fun ho hm hoff hunset => exec_fbWrite_regUnset hh ho hm hoff hunset data,
      fun pm we ho hm hoff hp hw => ?_⟩⟩
  have hbytes := memWrite_ofByte_planeByte hp hw s.issuer off.toNat data
  have hexec := execFbWrite_completes hh ho hm hoff hp hw data
  rw [memWrite_eq hp hw] at hbytes hexec
  simp only [apply_ite TByte.ofByte] at hbytes
  exact ⟨_, hexec, hbytes⟩

/-- A plane byte of known bits is what FB_READ responds with, whatever is drawn. -/
theorem exec_fbRead_ofByte {s : State} (hh : s.block.halted = false)
    (ho : s.block.lockOwner = some s.issuer) (hm : s.block.mode = .gfx640) {off : BitVec 17}
    (hoff : off.toNat < 76800) {p : BitVec 2} (hp : s.block.readPlane = .set p) {v : Byte}
    (hv : s.block.planeByte (planeIndex p) off.toNat = TByte.ofByte v) :
    ∃ t, exec (.fbRead off) s = .next t ∧
      ∀ c, t.caller c = (s.respond (.okByte v)).caller c := by
  have hexec := execFbRead_completes hh ho hm hoff hp
  rw [hv, resolve_ofByte] at hexec
  exact ⟨_, hexec, fun _ => rfl⟩

@[simp] theorem issuer_completed (s : State) (r : Response) (b : Block) :
    (s.completed r b).issuer = s.issuer := rfl

/-- Settles O33: the write leaves a known byte in plane `p`, the selection leaves the planes, and the
read responds with the byte. -/
theorem fbReadAfterFbWriteGivesTheByte : Obligations.FbReadAfterFbWriteGivesTheByte := by
  intro off data p pm we s hh ho hm hoff hpm hwe hsel
  have hwrite := execFbWrite_completes hh ho hm hoff hpm hwe data
  generalize hb : s.block.memWrite s.issuer off.toNat (TByte.ofByte data) = b at hwrite
  have hhb : b.halted = false := by rw [← hb, memWrite_halted, hh]
  have hob : b.lockOwner = some s.issuer := by rw [← hb, memWrite_lockOwner, ho]
  have hmb : b.mode = .gfx640 := by rw [← hb, memWrite_mode, hm]
  have hbyte : b.planeByte (planeIndex p) off.toNat =
      TByte.ofByte (if we[p.toNat]'p.isLt = true then 0x00#8 else data) := by
    rw [← hb, memWrite_ofByte_planeByte hpm hwe]
    exact if_pos ⟨rfl, hsel⟩
  have hselect := execSetReadPlane_completes (s := s.completed .ok b) hhb hob p
  obtain ⟨v, hread, hcaller⟩ := exec_fbRead_ofByte (p := p)
    (s := (s.completed .ok b).completed .ok (b.writeReadPlane s.issuer p)) hhb hob hmb hoff rfl hbyte
  refine ⟨_, _, v, hwrite, hselect, hread, ?_⟩
  simp [hcaller, caller_completed]

end Sys2Proof.Machine

/-! ## The device lock (O19, O21, O34, O35, O47)

What the lock decides for every command: the ones that take it hold or fault before any other check
where it is taken, and a command that completes while another caller owns it leaves the block alone. -/

namespace Sys2Proof.Machine

/-! ### The commands that take the lock -/

theorem takesLock_iff {i : Instr} : takesLock i = true ↔
    i = .lock ∨ i = .setMode ∨ i = .clearScreen ∨ ∃ x y c, i = .setPixel x y c := by
  cases i <;> simp [takesLock]

theorem takesLock_eq_false_iff {i : Instr} : takesLock i = false ↔
    i ≠ .lock ∧ i ≠ .setMode ∧ i ≠ .clearScreen ∧ ∀ x y c, i ≠ .setPixel x y c := by
  rw [← Bool.not_eq_true, takesLock_iff]
  simp only [not_or, not_exists, ne_eq]

/-- The owner's own LOCK or composite command faults before any other check (`42_device_lock.md`
R119). -/
theorem exec_lockHeld {i : Instr} {s : State} (hi : takesLock i = true) (hh : s.block.halted = false)
    (ho : s.block.lockOwner = some s.issuer) : exec i s = .next (s.raised .lockHeld) := by
  have hrun : ¬ s.block.halted = true := by simp [hh]
  obtain rfl | rfl | rfl | ⟨x, y, c, rfl⟩ := takesLock_iff.mp hi <;>
    exact (if_neg hrun).trans (if_pos ho)

/-- A halted block runs nothing (`60_exceptions.md` R151). -/
theorem exec_halted {s : State} (hh : s.block.halted = true) (i : Instr) : exec i s = .next s := by
  cases i <;> exact if_pos hh

/-- `Holds` is when a command holds: the same state again (`42_device_lock.md` R117). -/
theorem exec_of_holds {i : Instr} {s : State} (h : Holds i s) : exec i s = .next s := by
  by_cases hh : s.block.halted = true
  · exact exec_halted hh i
  · obtain ⟨hi, htaken, hforeign⟩ := h.resolve_left hh
    obtain rfl | rfl | rfl | ⟨x, y, c, rfl⟩ := takesLock_iff.mp hi <;>
      exact (if_neg hh).trans ((if_neg hforeign).trans (if_pos htaken))

theorem exec_of_foreign_lock {i : Instr} {s : State} {c : CallerId} (hi : takesLock i = true)
    (ho : s.block.lockOwner = some c) (hc : c ≠ s.issuer) : exec i s = .next s :=
  exec_of_holds (.inr ⟨hi, by simp [ho], by simpa [ho] using hc⟩)

/-- Settles O21: the lock check comes before the mode and range checks. -/
theorem lockIsCheckedBeforeModeAndRange : Obligations.LockIsCheckedBeforeModeAndRange := by
  intro s i hi hh
  have htakes := takesLock_iff.mpr hi
  exact ⟨exec_lockHeld htakes hh, fun c => exec_of_foreign_lock htakes⟩

/-- Settles O34: past the lock check the block is `Block.acquire`. -/
theorem lockTakesTheFreeLock : Obligations.LockTakesTheFreeLock :=
  ⟨reservedBitsRefused_of_opcode (op := .lock) rfl, fun _ => ⟨rfl, fun hh =>
    ⟨exec_lockHeld rfl hh, fun _ => exec_of_foreign_lock rfl, execLock_completes hh⟩⟩⟩

/-- Settles O35: past the lock check the block is `Block.release`. -/
theorem unlockFreesTheLock : Obligations.UnlockFreesTheLock :=
  ⟨reservedBitsRefused_of_opcode (op := .unlock) rfl, fun _ => ⟨rfl, fun hh =>
    ⟨exec_notOwner rfl rfl hh, execUnlock_completes hh⟩⟩⟩

/-! ### Every command's outcome -/

/-- A check that ends a command early leaves it a next state where the rest of the command has one. -/
theorem exists_next_of_check {p : Prop} [Decidable p] {t : State} {rest : Result}
    (h : ∃ u, rest = .next u) : ∃ u, (if p then .next t else rest) = .next u := by
  split_ifs
  · exact ⟨t, rfl⟩
  · exact h

/-- Past its checks, one to five of them, every command completes in a next state. -/
theorem exec_exists_next (i : Instr) (s : State) : ∃ t, exec i s = .next t := by
  cases i with
  | attrNew _ _ | attrSetFg _ _ | attrSetBg _ _ => exact exists_next_of_check ⟨_, rfl⟩
  | setPlaneMask _ | setWriteEnable _ | setReadPlane _ | unlock =>
    iterate 2 refine exists_next_of_check ?_
    exact ⟨_, rfl⟩
  | setMode | lock =>
    iterate 3 refine exists_next_of_check ?_
    exact ⟨_, rfl⟩
  | clearScreen | loadPalette _ =>
    iterate 4 refine exists_next_of_check ?_
    exact ⟨_, rfl⟩
  | setPixel _ _ _ | fbRead _ | fbWrite _ _ =>
    iterate 5 refine exists_next_of_check ?_
    exact ⟨_, rfl⟩

section completes
variable {i : Instr} {s : State} {r : Response} {b : Block} {d : Draws} (h : Completes i s r b d)
include h

/-- FB_READ and the ATTR commands respond with a byte, and no other command does (`60_exceptions.md`
R161). -/
theorem completes_okByte_iff : (∃ v, r = .okByte v) ↔
    (∃ off, i = .fbRead off) ∨ (∃ fg bg, i = .attrNew fg bg) ∨
      (∃ a c, i = .attrSetFg a c) ∨ (∃ a c, i = .attrSetBg a c) := by
  cases i with
  | fbRead off => obtain ⟨-, -, -, p, -, rfl, -⟩ := h; simp
  | attrNew _ _ | attrSetFg _ _ | attrSetBg _ _ => obtain ⟨rfl, -⟩ := h; simp
  | clearScreen => obtain ⟨-, -, rfl, -⟩ := h; simp
  | setPixel _ _ _ => obtain ⟨-, -, -, -, rfl, -⟩ := h; simp
  | fbWrite _ _ => obtain ⟨-, -, -, pm, we, -, -, rfl, -⟩ := h; simp
  | setMode | setPlaneMask _ | setWriteEnable _ | setReadPlane _ | loadPalette _ | lock | unlock =>
    obtain ⟨-, rfl, -⟩ := h; simp

/-- A command that completes found the lock free or its own, or leaves the block as it is. -/
theorem completes_lock_or_same :
    s.block.lockOwner = none ∨ s.block.lockOwner = some s.issuer ∨ b = s.block := by
  cases i with
  | setMode | clearScreen | setPixel _ _ _ | lock => exact .inl h.1
  | setPlaneMask _ | setWriteEnable _ | setReadPlane _ | loadPalette _ | fbRead _ | fbWrite _ _
  | unlock => exact .inr (.inl h.1)
  | attrNew _ _ | attrSetFg _ _ | attrSetBg _ _ => exact .inr (.inr h.2.1)

end completes

/-- Settles O19: a command has a next state, `exec_inv` says which, and a completion keeps the fault
record. -/
theorem everyCommandHoldsFaultsOrCompletes : Obligations.EveryCommandHoldsFaultsOrCompletes := by
  refine fun i s => ⟨exec_of_holds, fun hruns => ?_⟩
  obtain ⟨t, ht⟩ := exec_exists_next i s
  rcases exec_inv ht with ⟨hholds, -⟩ | ⟨-, f, rfl⟩ | ⟨hh, r, b, d, hc, rfl⟩
  · exact absurd hholds hruns
  · exact .inl ⟨f, ht⟩
  · obtain ⟨hf, hfc, hfw, hbh⟩ := completes_sameFault hc
    exact .inr ⟨r, b, d, ht, hbh.trans hh, hf, hfc, hfw, completes_okByte_iff hc⟩

/-- Settles O47: another caller's command holds, faults, or completes with the block as it is. -/
theorem lockShutsOtherCallersOut : Obligations.LockShutsOtherCallersOut := by
  intro i s t c ho hc h
  rcases exec_inv h with ⟨-, rfl⟩ | ⟨-, f, rfl⟩ | ⟨-, r, b, d, hcomp, rfl⟩
  · rfl
  · rfl
  · rcases completes_lock_or_same hcomp with hfree | hown | rfl
    · simp [hfree] at ho
    · exact absurd (Option.some.inj (hown.symm.trans ho)) hc
    · rfl

end Sys2Proof.Machine

/-! ## Which commands may run (O9 to O12)

An outstanding command is enabled exactly when the block is not halted and the lock does not bar it.
With none enabled, a step waits or lets a caller issue. -/

namespace Sys2Proof.Machine

/-- Settles O9: the turns are the callers that may issue, then the enabled commands. -/
theorem anyEnabledCommandMayBeGranted : Obligations.AnyEnabledCommandMayBeGranted := by
  refine fun s => ⟨?_, turn_eq_none_iff⟩
  simpa [State.turns] using turn_eq s

/-- The enabling rule of `42_device_lock.md` R117. -/
theorem enables_iff {b : Block} {t : Transaction} : b.enables t = true ↔ b.halted = false ∧
    ((∃ e, decode t.command.word t.command.payload = .error e) ∨
      (∃ i, decode t.command.word t.command.payload = .ok i ∧ takesLock i = false) ∨
      b.lockOwner = none ∨ b.lockOwner = some t.caller) := by
  unfold Block.enables
  cases decode t.command.word t.command.payload <;> simp [or_assoc]

theorem mem_enabled_iff {s : State} {t : Transaction} :
    t ∈ s.enabled ↔ t ∈ s.outstanding ∧ s.block.enables t = true := List.mem_filter

/-- Settles O10: an outstanding command is the one at its caller's index, and `enables_iff` is R117's
rule. -/
theorem enabledExactlyWhenTheLockAllows : Obligations.EnabledExactlyWhenTheLockAllows := by
  intro s hs t
  rw [mem_enabled_iff, mem_outstanding_iff hs.callers.canonical.1, Caller.outstanding_eq_some,
    enables_iff, and_assoc]
  simp only [takesLock_eq_false_iff]

/-- A lock-taking command is not enabled while another caller owns the lock. -/
theorem not_enables_of_foreign {b : Block} {t : Transaction} {i : Instr} {c : CallerId}
    (ho : b.lockOwner = some c) (hc : t.caller ≠ c)
    (hdecode : decode t.command.word t.command.payload = .ok i) (hi : takesLock i = true) :
    ¬ b.enables t = true := by
  rw [enables_iff]
  simp [hdecode, hi, ho, hc.symm]

/-- With no command enabled, a step leaves the block as it is, and each caller but for having issued. -/
theorem step_nothing_enabled {s : State} (hr : s.resetInput = false) (h : s.enabled = []) :
    ∃ t, step s = .next t ∧ t.block = s.block ∧
      ∀ c, t.caller c = s.caller c ∨ t.caller c = { s.caller c with issued := true } := by
  rcases hturn : s.turn with _ | ⟨d⟩ | ⟨t⟩
  · exact ⟨s, step_waits hr (turn_eq_none_iff.mp hturn).1 h, rfl, fun _ => .inl rfl⟩
  · refine ⟨_, step_issue hr hturn, rfl, fun c => ?_⟩
    by_cases hc : c = d
    · exact .inr (by simp [hc])
    · exact .inl (by simp [hc])
  · simpa [h] using turn_execute hturn

/-- Settles O11: a halted block enables no command and runs none. -/
theorem nothingEnabledNothingChanges : Obligations.NothingEnabledNothingChanges := by
  refine ⟨fun s => step_waits, fun s hr h => ?_, fun s i hh => exec_halted hh i⟩
  obtain ⟨t, hstep, hblock, hcallers⟩ :=
    step_nothing_enabled hr (h.elim id enabled_eq_nil_of_halted)
  refine ⟨t, hstep, hblock, fun c => ?_⟩
  obtain hsame | hissued := hcallers c
  · simp [hsame]
  · simp [hissued]

/-- Settles O12: no outstanding command is enabled, and a complete run has the lock free. -/
theorem unreleasedLockBlocksItsTakers : Obligations.UnreleasedLockBlocksItsTakers := by
  intro s c hr ho hout
  have hnone : s.enabled = [] := List.filter_eq_nil_iff.mpr fun t ht => by
    obtain ⟨hc, i, hdecode, hi⟩ := hout t ht
    exact not_enables_of_foreign ho hc hdecode (takesLock_iff.mpr hi)
  obtain ⟨t, hstep, hblock, hcallers⟩ := step_nothing_enabled hr hnone
  refine ⟨⟨t, hstep, hblock, fun d => ?_⟩, fun hready => step_waits hr hready hnone, ?_,
    fun hne => ⟨hne, hnone⟩⟩
  · obtain hsame | hissued := hcallers d
    · simp [hsame]
    · simp [hissued]
  · rintro ⟨-, -, hfree, -⟩
    simp [hfree] at ho

end Sys2Proof.Machine

/-! ## The placed command (O8)

`State.present` leaves one command outstanding, its caller the lock's owner where there is one, so the
next turn can only be that command's. -/

namespace Sys2Proof

theorem decodeBytes_bytesOfWord (w : Word) (payload : List Byte) :
    decodeBytes (bytesOfWord w ++ payload) = decode w payload :=
  byteTransportCarriesTheTransaction.1 w payload

/-- `Machine.tableCommand` is the command that `decodeTableWord` decodes. -/
theorem decode_tableCommand {nbits w : Nat} {i : Instr} (h : decodeTableWord nbits w = some i) :
    decode (Machine.tableCommand nbits w).word (Machine.tableCommand nbits w).payload = .ok i := by
  simp only [decodeTableWord, decodeBytes_bytesOfWord] at h
  simp only [Machine.tableCommand]
  rcases hd : decode (tableTransaction nbits w).1 (tableTransaction nbits w).2 with e | j
  · simp [hd, Except.toOption] at h
  · rw [hd] at h
    exact congrArg _ (Option.some.inj h)

end Sys2Proof

namespace Sys2Proof.Machine

/-! ### The callers -/

@[simp] theorem Caller.outstanding_quiet (k : Caller) : k.quiet.outstanding = none := rfl

@[simp] theorem Caller.ready_quiet (k : Caller) : k.quiet.ready = false := by
  simp [Caller.ready, Caller.quiet]

@[simp] theorem Caller.outstanding_present (cmd : Command) (k : Caller) :
    (k.present cmd).outstanding = some cmd := by
  refine Caller.outstanding_eq_some.mpr ⟨rfl, ?_⟩
  have hlength : (k.sequence.take k.index ++
      List.replicate (k.index - k.sequence.length) cmd).length = k.index := by
    simp only [List.length_append, List.length_take, List.length_replicate]
    omega
  exact (congrArg _ hlength.symm).trans List.getElem?_concat_length

@[simp] theorem Caller.ready_present (cmd : Command) (k : Caller) :
    (k.present cmd).ready = false := rfl

theorem mem_quietCallers {m : List (Nat × Caller)} {e : Nat × Caller} (h : e ∈ quietCallers m) :
    ∃ k : Caller, e.2 = k.quiet := by
  induction m with
  | nil => simp [quietCallers] at h
  | cons f m ih =>
    obtain ⟨c, k⟩ := f
    unfold quietCallers at h
    split at h
    · exact ih h
    · rcases List.mem_cons.mp h with rfl | h
      · exact ⟨k, rfl⟩
      · exact ih h

/-- A value stored at a key is listed there, whatever the list. -/
theorem mem_insertAt_self {α : Type} (a : Nat) (v : α) (m : List (Nat × α)) :
    (a, v) ∈ insertAt a v m := by
  induction m with
  | nil => exact List.mem_singleton_self _
  | cons e m ih =>
    unfold insertAt
    split_ifs
    · exact List.mem_cons_self
    · exact List.mem_cons_self
    · exact List.mem_cons_of_mem _ ih

theorem mem_store_self {α : Type} [DecidableEq α] {d v : α} (h : v ≠ d) (a : Nat)
    (m : List (Nat × α)) : (a, v) ∈ store d m a v := by
  rw [store, if_neg h]
  exact mem_insertAt_self a v m

/-! ### The turn -/

/-- The transaction that `State.present` makes outstanding. -/
def State.presented (cmd : Command) (s : State) : Transaction := ⟨s.block.lockOwner.getD 0, cmd⟩

theorem mem_callers_present {s : State} {cmd : Command} {e : Nat × Caller}
    (h : e ∈ (s.present cmd).callers) :
    (∃ k : Caller, e = ((s.presented cmd).caller, k.present cmd)) ∨ ∃ k : Caller, e.2 = k.quiet := by
  rcases mem_store h with ⟨he, -⟩ | he
  · exact .inl ⟨_, he⟩
  · exact .inr (mem_quietCallers he)

theorem ready_present (s : State) (cmd : Command) : (s.present cmd).ready = [] := by
  refine List.map_eq_nil_iff.mpr (List.filter_eq_nil_iff.mpr fun e he => ?_)
  rcases mem_callers_present he with ⟨k, rfl⟩ | ⟨k, hk⟩
  · simp
  · simp [hk]

theorem mem_outstanding_present {s : State} {cmd : Command} {t : Transaction} :
    t ∈ (s.present cmd).outstanding ↔ t = s.presented cmd := by
  simp only [State.outstanding, List.mem_filterMap, Option.map_eq_some_iff]
  constructor
  · rintro ⟨e, he, cmd', hcmd, rfl⟩
    rcases mem_callers_present he with ⟨k, rfl⟩ | ⟨k, hk⟩
    · obtain rfl : cmd = cmd' := by simpa using hcmd
      rfl
    · simp [hk] at hcmd
  · rintro rfl
    refine ⟨_, mem_store_self ?_ _ _, cmd, Caller.outstanding_present cmd _, rfl⟩
    simp [Caller.present, Caller.idle]

/-- The presented command finds the lock free or its caller's own. -/
theorem enables_presented {s : State} (hh : s.block.halted = false) (cmd : Command) :
    s.block.enables (s.presented cmd) = true := by
  refine enables_iff.mpr ⟨hh, .inr (.inr ?_)⟩
  rcases ho : s.block.lockOwner with _ | c
  · exact .inl rfl
  · exact .inr (by simp [State.presented, ho])

theorem turn_present {s : State} (hh : s.block.halted = false) (cmd : Command) :
    (s.present cmd).turn = some (.execute (s.presented cmd)) := by
  have hmem : s.presented cmd ∈ (s.present cmd).enabled :=
    mem_enabled_iff.mpr ⟨mem_outstanding_present.mpr rfl, enables_presented hh cmd⟩
  rcases hturn : (s.present cmd).turn with _ | ⟨c⟩ | ⟨t⟩
  · simp [(turn_eq_none_iff.mp hturn).2] at hmem
  · simpa [ready_present] using turn_issue hturn
  · rw [mem_outstanding_present.mp (enabled_outstanding (turn_execute hturn))]

/-- Settles O8: the placed command has the only turn, and a legal word is its command's encoding. -/
theorem placedWordRunsNext : Obligations.PlacedWordRunsNext := by
  intro s nbits w i hh hi
  have hdecode := decode_tableCommand hi
  obtain ⟨-, hword, -⟩ := encodeOfDecodeGivesTheTransaction _ _ _ hdecode
  exact ⟨_, step_execute rfl (turn_present hh _) hdecode, rfl, rfl, hword.symm⟩

end Sys2Proof.Machine

/-! ## The planar writer (O36 to O42, O44)

SET_MODE, SET_PIXEL and CLEAR_SCREEN past their checks are one update of the block each (`setMode_eq`,
`setPixel_eq`, `clearScreen_eq`). Read bit by bit, SET_PIXEL's update is one bit of each plane, so two
of them commute where their bits differ, and CLEAR_SCREEN's does not depend on what the window held. -/

namespace Sys2Proof.Machine

/-! ### The addressing transform -/

/-- Every bit of the visible plane is a pixel's (`43_planar_writer.md` R129). -/
theorem pixel_surjective {off b : Nat} (hoff : off < 38400) (hb : b < 8) :
    ∃ x y, x < 640 ∧ y < 480 ∧ pixelOffset x y = off ∧ pixelBit x = b := by
  simp only [pixelOffset, pixelBit, Config.bytesPerRow]
  exact ⟨8 * (off % 80) + (7 - b), off / 80, by omega, by omega, by omega, by omega⟩

/-- Settles O36: the range, the injectivity and the surjectivity of the transform. -/
theorem pixelAddressesAreABijection : Obligations.PixelAddressesAreABijection :=
  ⟨fun _ _ => ⟨rfl, rfl⟩, ⟨rfl, rfl, rfl, rfl⟩,
    fun x _ hx hy => ⟨pixelOffset_lt hx hy, pixelBit_lt x⟩,
    fun _ _ _ _ hx _ hx' _ => pixel_injective hx hx', fun _ _ => pixel_surjective⟩

/-! ### MODE -/

theorem Mode.eq_other_of_ne {m : Mode} (h : m ≠ .gfx640) : m = .other := by
  cases m with
  | other => rfl
  | gfx640 => exact absurd rfl h

/-- A command that changes MODE is a SET_MODE that enters GFX640 (`43_planar_writer.md` R136). -/
theorem ends_mode_change {i : Instr} {s t : State} (h : Ends i s t)
    (hne : t.block.mode ≠ s.block.mode) :
    i = .setMode ∧ s.block.mode = .other ∧ t.block.mode = .gfx640 := by
  have hgfx : t.block.mode = .gfx640 := by
    rcases h with ⟨-, rfl⟩ | ⟨-, f, rfl⟩ | ⟨-, r, b, d, hc, rfl⟩
    · exact absurd rfl hne
    · exact absurd rfl hne
    · exact completes_gfx640 hc (.inl hne)
  exact ⟨(ends_writesOnlyItsOwn h).mode hne, Mode.eq_other_of_ne (hgfx ▸ hne.symm), hgfx⟩

/-- Settles O44: a step is a reset, leaves MODE as it is, or ends as a command does. -/
theorem onlySetModeEntersAndOnlyResetLeaves : Obligations.OnlySetModeEntersAndOnlyResetLeaves := by
  refine ⟨fun i s t h => ends_mode_change (exec_inv h), fun s t h hs ht => ?_⟩
  have hne : t.block.mode ≠ s.block.mode := by simp [hs, ht]
  rcases step_inv h with ⟨hr, -⟩ | ⟨-, -, rfl⟩ | ⟨-, c, -, rfl⟩ | ⟨-, tr, -, ⟨-, rfl⟩ | ⟨i, -, he⟩⟩
  · exact hr
  · exact absurd rfl hne
  · exact absurd rfl hne
  · exact absurd rfl hne
  · obtain ⟨-, -, hgfx⟩ := ends_mode_change he hne
    simp [ht] at hgfx

/-! ### SET_MODE -/

/-- The LUT of DEFAULT_PALETTE, entry by entry (`40_color_model.md` R94). -/
theorem paletteLut_default (i : Fin 256) : (paletteLut Config.defaultPalette)[i] =
    ⟨.set (Config.defaultPaletteChannel (3 * i.val)),
      .set (Config.defaultPaletteChannel (3 * i.val + 1)),
      .set (Config.defaultPaletteChannel (3 * i.val + 2))⟩ := by
  have hchannel (k : Nat) (hk : k < 3) : paletteChannel Config.defaultPalette i k =
      .set (Config.defaultPaletteChannel (3 * i.val + k)) :=
    paletteChannel_default (by simp only [Config.paletteBytes]; omega)
  rw [Fin.getElem_fin, paletteLut_getElem _ i i.isLt, hchannel 0 (by decide),
    hchannel 1 (by decide), hchannel 2 (by decide)]
  rfl

/-- Settles O37: past the lock check the block is `Block.setMode`, whose planes list no byte. -/
theorem setModeEntersGraphicsMode : Obligations.SetModeEntersGraphicsMode := by
  refine ⟨reservedBitsRefused_of_opcode (op := .setMode) rfl, fun s => ⟨rfl, fun hh =>
    ⟨exec_lockHeld rfl hh, fun _ => exec_of_foreign_lock rfl, fun ho =>
      ⟨Vector.replicate 4 [], paletteLut Config.defaultPalette, ?_, fun p a i => ?_,
        paletteLut_default⟩⟩⟩⟩
  · refine (execSetMode_completes hh ho).trans ?_
    simp only [setMode_eq, ho]
    rfl
  · simp

/-! ### Where a composite command draws -/

/-- SET_PIXEL and CLEAR_SCREEN may draw: the block runs, the lock is free and the mode is GFX640. -/
structure Block.CanDraw (b : Block) : Prop where
  running : b.halted = false
  free    : b.lockOwner = none
  gfx640  : b.mode = .gfx640

theorem setPixel_canDraw {b : Block} (h : b.CanDraw) (c : CallerId) (x y : Nat)
    (color : BitVec 4) : (b.setPixel c x y color).CanDraw := by
  obtain ⟨planes, he, -⟩ := setPixel_eq c x y color b
  rw [he]
  exact ⟨h.running, rfl, h.gfx640⟩

theorem clearScreen_canDraw {b : Block} (h : b.CanDraw) (c : CallerId) :
    (b.clearScreen c).CanDraw := by
  obtain ⟨planes, he, -⟩ := clearScreen_eq c b
  rw [he]
  exact ⟨h.running, rfl, h.gfx640⟩

/-! ### SET_PIXEL -/

theorem exec_setPixel_coordRange {s : State} (h : s.block.CanDraw) {x : BitVec 10} {y : BitVec 9}
    (hrange : 640 ≤ x.toNat ∨ 480 ≤ y.toNat) (color : BitVec 4) :
    exec (.setPixel x y color) s = .next (s.raised .coordRange) := by
  have hout : coordOutOfRange x.toNat y.toNat = true := (coordOutOfRange_iff _ _).mpr hrange
  simp [exec, execSetPixel, State.raise, h.running, h.free, h.gfx640, hout]

/-- A SET_PIXEL that completes leaves the block `Block.setPixel` gives. -/
theorem exec_setPixel_block {s : State} (h : s.block.CanDraw) {x : BitVec 10} {y : BitVec 9}
    (hx : x.toNat < 640) (hy : y.toNat < 480) (color : BitVec 4) :
    ∃ t, exec (.setPixel x y color) s = .next t ∧
      t.block = s.block.setPixel s.issuer x.toNat y.toNat color ∧ t.issuer = s.issuer :=
  ⟨_, execSetPixel_completes h.running h.free h.gfx640 hx hy color, State.completed_block _ _ _,
    issuer_completed _ _ _⟩

/-- Settles O38: past the checks the block is `Block.setPixel`. -/
theorem setPixelRunsFourRounds : Obligations.SetPixelRunsFourRounds := by
  refine ⟨reservedBitsRefused_of_opcode (op := .setPixel) rfl, fun _ _ _ => rfl,
    fun x y color s hh => ⟨exec_lockHeld rfl hh, fun _ => exec_of_foreign_lock rfl,
      fun ho hm => exec_setPixel_notInMode hh hm ho x y color,
      fun ho hm hrange => exec_setPixel_coordRange ⟨hh, ho, hm⟩ hrange color,
      fun ho hm hx hy => ?_⟩⟩
  obtain ⟨planes, he, hread⟩ := setPixel_eq s.issuer x.toNat y.toNat color s.block
  refine ⟨planes, (execSetPixel_completes hh ho hm hx hy color).trans ?_,
    fun p => hread (planeIndex p)⟩
  simp only [he, ho, List.append_assoc]
  rfl

/-- SET_PIXEL sets one bit of each plane and keeps every other (`43_planar_writer.md` R133). -/
theorem setPixel_bit (c : CallerId) (x y : Nat) (color : BitVec 4) (b : Block) (p : Fin 4)
    (a i : Nat) (hi : i < 8) : ((b.setPixel c x y color).planeByte p a)[i] =
      if a = pixelOffset x y ∧ i = pixelBit x then .known color[p] else (b.planeByte p a)[i] := by
  obtain ⟨planes, he, hread⟩ := setPixel_eq c x y color b
  rw [he, Block.planeByte, hread]
  by_cases ha : a = pixelOffset x y
  · subst ha
    simp [mergedByte_getElem, pixelMask_getElem, BitVec.getLsbD_eq_getElem]
  · simp [ha]

/-- Settles O39: the bits are `setPixel_bit`, the registers those of `setPixel_eq`. -/
theorem setPixelSetsExactlyItsPixel : Obligations.SetPixelSetsExactlyItsPixel := by
  intro x y color s hh ho hm hx hy
  obtain ⟨t, ht, hblock, -⟩ := exec_setPixel_block ⟨hh, ho, hm⟩ hx hy color
  refine ⟨t, ht, ?_⟩
  rw [hblock]
  refine ⟨fun p a i => setPixel_bit _ _ _ _ _ p a i i.isLt, setPixel_pixelCode _ _ _ _ _, ?_⟩
  obtain ⟨planes, he, -⟩ := setPixel_eq s.issuer x.toNat y.toNat color s.block
  rw [he]
  exact ⟨rfl, rfl, rfl, rfl, rfl, rfl⟩

/-- Two pixels in range that are not the same have no bit in common, so neither SET_PIXEL touches what
the other sets. -/
theorem setPixel_comm_planeByte {x y x' y' : Nat} (hx : x < 640) (hx' : x' < 640)
    (hne : ¬ (x = x' ∧ y = y')) (c : CallerId) (color color' : BitVec 4) (b : Block) (p : Fin 4)
    (a : Nat) :
    ((b.setPixel c x y color).setPixel c x' y' color').planeByte p a =
      ((b.setPixel c x' y' color').setPixel c x y color).planeByte p a := by
  ext i hi
  have hapart : ¬ ((a = pixelOffset x y ∧ i = pixelBit x) ∧
      (a = pixelOffset x' y' ∧ i = pixelBit x')) := fun ⟨⟨ho, hb⟩, ho', hb'⟩ =>
    hne (pixel_injective hx hx' (ho.symm.trans ho') (hb.symm.trans hb'))
  simp only [setPixel_bit]
  split_ifs with h' h
  · exact absurd ⟨h, h'⟩ hapart
  all_goals rfl

/-- Settles O40: the first SET_PIXEL leaves the block ready for the second. -/
theorem setPixelsOnDifferentPixelsCommute : Obligations.SetPixelsOnDifferentPixelsCommute := by
  intro x x' y y' color color' s hh ho hm hx hy hx' hy' hne
  have hs : s.block.CanDraw := ⟨hh, ho, hm⟩
  obtain ⟨t, ht, hblock, hissuer⟩ := exec_setPixel_block hs hx hy color
  obtain ⟨u, hu, hblock', hissuer'⟩ := exec_setPixel_block hs hx' hy' color'
  obtain ⟨tu, htu, htwo, -⟩ :=
    exec_setPixel_block (hblock ▸ setPixel_canDraw hs _ _ _ _) hx' hy' color'
  obtain ⟨ut, hut, htwo', -⟩ :=
    exec_setPixel_block (hblock' ▸ setPixel_canDraw hs _ _ _ _) hx hy color
  refine ⟨t, tu, u, ut, ht, htu, hu, hut, fun p a => ?_⟩
  rw [htwo, htwo', hissuer, hissuer', hblock, hblock']
  refine setPixel_comm_planeByte hx hx' ?_ _ _ _ _ p a
  rintro ⟨hxx, hyy⟩
  exact hne.elim (· (BitVec.eq_of_toNat_eq hxx)) (· (BitVec.eq_of_toNat_eq hyy))

/-! ### CLEAR_SCREEN -/

/-- Settles O41: past the checks the block is `Block.clearScreen`. -/
theorem clearScreenClearsTheWindow : Obligations.ClearScreenClearsTheWindow := by
  refine ⟨reservedBitsRefused_of_opcode (op := .clearScreen) rfl, fun s => ⟨rfl, fun hh =>
    ⟨exec_lockHeld rfl hh, fun _ => exec_of_foreign_lock rfl,
      fun ho hm => exec_clearScreen_notInMode hh hm ho, fun ho hm => ?_⟩⟩⟩
  obtain ⟨planes, he, hread⟩ := clearScreen_eq s.issuer s.block
  refine ⟨planes, (execClearScreen_completes hh ho hm).trans ?_, hread⟩
  simp only [he, ho, List.append_assoc]
  rfl

/-- Every byte after CLEAR_SCREEN (`43_planar_writer.md` R135). -/
theorem clearScreen_planeByte (c : CallerId) (b : Block) (p : Fin 4) (a : Nat) :
    (b.clearScreen c).planeByte p a =
      if a < Config.windowBytes then TByte.ofByte 0x00#8 else b.planeByte p a := by
  obtain ⟨planes, he, hread⟩ := clearScreen_eq c b
  rw [he]
  exact hread p a

/-- Clearing again leaves the planes as they are: they read alike and are in canonical form. -/
theorem clearScreen_planes_again {b : Block} (hwf : b.planesWf) (c : CallerId) :
    ((b.clearScreen c).clearScreen c).planes = (b.clearScreen c).planes := by
  have honce := clearScreen_planesWf hwf c
  have htwice := clearScreen_planesWf honce c
  have hread (p : Fin 4) (a : Nat) : ((b.clearScreen c).clearScreen c).planeByte p a =
      (b.clearScreen c).planeByte p a := by
    rw [clearScreen_planeByte, clearScreen_planeByte]
    split_ifs <;> rfl
  exact Vector.ext fun p hp => Memory.ext_read (htwice ⟨p, hp⟩) (honce ⟨p, hp⟩) (hread ⟨p, hp⟩)

/-- Clearing again changes the event log alone. -/
theorem clearScreen_again {b : Block} (hwf : b.planesWf) (c : CallerId) :
    (b.clearScreen c).clearScreen c =
      { b.clearScreen c with log := ((b.clearScreen c).clearScreen c).log } := by
  have hplanes := clearScreen_planes_again hwf c
  obtain ⟨planes, he, -⟩ := clearScreen_eq c b
  obtain ⟨planes', he', -⟩ := clearScreen_eq c (b.clearScreen c)
  rw [he', he] at hplanes ⊢
  cases hplanes
  rfl

/-- A CLEAR_SCREEN that completes leaves the block `Block.clearScreen` gives. -/
theorem exec_clearScreen_block {s : State} (h : s.block.CanDraw) :
    ∃ t, exec .clearScreen s = .next t ∧ t.block = s.block.clearScreen s.issuer ∧
      t.issuer = s.issuer :=
  ⟨_, execClearScreen_completes h.running h.free h.gfx640, State.completed_block _ _ _,
    issuer_completed _ _ _⟩

/-- Settles O42: the first CLEAR_SCREEN leaves the block ready for the second. -/
theorem clearScreenIsIdempotent : Obligations.ClearScreenIsIdempotent := by
  intro s hh ho hm hs
  have hdraw : s.block.CanDraw := ⟨hh, ho, hm⟩
  obtain ⟨t, ht, hblock, hissuer⟩ := exec_clearScreen_block hdraw
  obtain ⟨u, hu, hblock', -⟩ := exec_clearScreen_block (hblock ▸ clearScreen_canDraw hdraw _)
  refine ⟨t, u, ht, hu, ?_⟩
  rw [hblock', hissuer, hblock]
  exact clearScreen_again hs.block.planesWf s.issuer

end Sys2Proof.Machine

/-! ## No stop, faults and responses (O14, O17, O18) -/

namespace Sys2Proof.Machine

/-- Settles O14: a step settles in a state or runs a command, and every command has a next state; a
fault is one of these states (log 7). -/
theorem everyStepHasANextState : Obligations.EveryStepHasANextState := by
  intro s
  rcases hfetch : s.fetch with t | ⟨i, t⟩
  · exact ⟨t, by simp [step, hfetch]⟩
  · obtain ⟨u, hexec⟩ := exec_exists_next i t
    exact ⟨u, by simp [step, hfetch, hexec]⟩

/-- Settles O17: the effect is that of `Block.raiseFault`, and the codes are R146's table. -/
theorem raisedFaultWritesTheRecordOnly : Obligations.RaisedFaultWritesTheRecordOnly :=
  ⟨fun _ _ => rfl, rfl, rfl, rfl, rfl, rfl, rfl, rfl, rfl⟩

/-- Settles O18: a response stores the issuer's record alone, and `caller_respond` gives each caller
after it. -/
theorem respondGivesOneResponse : Obligations.RespondGivesOneResponse := by
  refine fun s r => ⟨State.respond_block r s, State.respond_port r s, State.respond_draws r s,
    State.respond_resetInput r s, ?_, fun c hc => ?_⟩
  · rw [caller_respond, if_pos rfl]
  · rw [caller_respond, if_neg hc]

end Sys2Proof.Machine

/-! ## Complete runs and reset (O13, O16) -/

namespace Sys2Proof.Machine

/-- No caller may issue exactly when no listed one is ready. -/
theorem ready_eq_nil_iff {s : State} : s.ready = [] ↔ ∀ e ∈ s.callers, e.2.ready = false := by
  simp [State.ready, List.filter_eq_nil_iff]

/-- Nothing is outstanding exactly when no listed caller has a command outstanding. -/
theorem outstanding_eq_nil_iff {s : State} :
    s.outstanding = [] ↔ ∀ e ∈ s.callers, e.2.outstanding = none := by
  simp only [State.outstanding, List.filterMap_eq_nil_iff, Option.map_eq_none_iff]

/-- With nothing outstanding, nothing is enabled. -/
theorem enabled_eq_nil_of_outstanding {s : State} (h : s.outstanding = []) : s.enabled = [] := by
  rw [State.enabled, h, List.filter_nil]

/-- A caller that has issued its whole sequence and received every response
(`70_reset_and_hazards.md` R178). -/
abbrev Caller.Finished (k : Caller) : Prop :=
  k.index = k.sequence.length ∧ k.responses.length = k.sequence.length

/-- A caller that has issued its whole sequence may issue nothing more. -/
theorem Caller.ready_eq_false_of_index {k : Caller} (h : k.index = k.sequence.length) :
    k.ready = false := by
  simp [Caller.ready, h]

/-- A caller before the end of its sequence has its next command outstanding, or may issue it. -/
theorem Caller.Consistent.index_eq_length {k : Caller} (hk : k.Consistent) (hready : k.ready = false)
    (hout : k.outstanding = none) : k.index = k.sequence.length := by
  by_contra hne
  have hlt : k.index < k.sequence.length := hk.index.lt_of_ne hne
  cases hissued : k.issued with
  | false => simp [Caller.ready_iff.mpr ⟨hissued, hlt⟩] at hready
  | true =>
    have hcmd := List.getElem?_eq_getElem hlt
    simp [Caller.outstanding_eq_some.mpr ⟨hissued, hcmd⟩] at hout

/-- What holds of the idle caller and of every listed one holds of every caller. -/
theorem forall_caller_of_callers {s : State} (hs : CallersInv s.callers) {P : Caller → Prop}
    (hidle : P Caller.idle) (h : ∀ e ∈ s.callers, P e.2) (c : CallerId) : P (s.caller c) := by
  by_cases hc : s.caller c = Caller.idle
  · rwa [hc]
  · exact h _ (mem_callers_of_ne_idle hs.canonical.1 hc)

/-- Settles O13: in a complete run nothing can be issued or granted; and a caller with nothing
outstanding and nothing left to issue is at the end of its sequence. -/
theorem completeRunStays : Obligations.CompleteRunStays := by
  rintro s ⟨-, hs⟩ hr
  constructor
  · rintro ⟨hdone, hout, -, -⟩
    have hready : s.ready = [] :=
      ready_eq_nil_iff.mpr fun e he => Caller.ready_eq_false_of_index (hdone e he).1
    exact ⟨step_waits hr hready (enabled_eq_nil_of_outstanding hout),
      forall_caller_of_callers (P := Caller.Finished) hs ⟨rfl, rfl⟩ hdone⟩
  · intro hout hready hfree hsafe
    refine ⟨fun e he => ?_, hout, hfree, hsafe⟩
    have hk : e.2.Consistent := ⟨hs.responses e he, hs.index e he, hs.issued e he⟩
    have hindex := hk.index_eq_length (ready_eq_nil_iff.mp hready e he)
      (outstanding_eq_nil_iff.mp hout e he)
    exact ⟨hindex, hk.responses.trans hindex⟩

/-- A step with the reset input asserted takes the reset. -/
theorem step_takesReset {s : State} (hr : s.resetInput = true) : step s = .next s.takeReset := by
  simp [step, State.fetch, hr]

/-- A reset restarts every caller. -/
theorem caller_takeReset {s : State} (hs : CallersInv s.callers) (c : CallerId) :
    s.takeReset.caller c = (s.caller c).restarted := lookup_restartedCallers hs.canonical.1 c

/-- Settles O16: the step is `State.takeReset`, which restarts every caller. -/
theorem resetStepRestoresTheBlock : Obligations.ResetStepRestoresTheBlock :=
  fun s hs hr => ⟨s.takeReset, step_takesReset hr, s.takeReset_block, s.takeReset_resetInput,
    s.takeReset_draws, outstanding_takeReset s, caller_takeReset hs⟩

end Sys2Proof.Machine

/-! ## Sample words (O5) -/

namespace Sys2Proof

/-- A transaction that is a well-formed command's encoding decodes to that command. -/
theorem decode_eq_ok_of_encode {w : Word} {p : List Byte} {i : Instr} (hword : encodeWord i = w)
    (hpayload : encodePayload i = p) (hwf : i.wellFormed = true) : decode w p = .ok i := by
  subst hword hpayload
  exact decodeOfEncodeGivesTheCommand i hwf

/-- Settles O5: each legal word is its command's encoding; of the illegal ones, one has a reserved
opcode, one has bit 4 of F-PIX set and one carries a payload its opcode does not take. -/
theorem sampleWordsDecode : Obligations.SampleWordsDecode := by
  refine ⟨decode_eq_ok_of_encode rfl rfl rfl, decode_eq_ok_of_encode rfl rfl rfl,
    decode_eq_ok_of_encode rfl rfl rfl, decode_eq_ok_of_encode rfl rfl rfl,
    decode_eq_ok_of_encode rfl rfl rfl, decode_eq_ok_of_encode rfl rfl rfl,
    decode_eq_ok_of_encode rfl rfl rfl, decode_eq_ok_of_encode rfl rfl rfl,
    decode_eq_ok_of_encode rfl rfl rfl, decode_eq_ok_of_encode rfl rfl rfl, ?_, ?_, ?_⟩
  · rfl
  · exact reservedBitsRefused_of_opcode (op := .setPixel) rfl _ _ rfl (by decide)
  · rfl

end Sys2Proof
